-- ==== Sys2Proof/Word.lean ====
section
/-! DEFINITION. The word types of the block: bytes of output memory (R40), 32-bit operands, accumulator and
addresses (R21, R25, R60), and the 64-bit words of the command and response ports (R60, R64). -/

namespace Sys2Proof

/-- One byte of output memory or of a HASH3 window (R40, R61). -/
abbrev Byte := BitVec 8

/-- A 32-bit word: ACC, OUT_PTR, the main operand `a`, a result (R20, R60, R64). -/
abbrev Word := BitVec 32

/-- A 64-bit word on the command port or the response port (R60, R64). -/
abbrev PortWord := BitVec 64

end Sys2Proof
end

