-- ==== Sys2Proof/Syntax.lean ====
section
/-! DEFINITION. The five operations of the opcode table (R62), and the lines of the spec's textual syntax (R69). -/

namespace Sys2Proof

/-- The operations of the block (R2, R62), each operand as wide as its field of the command word (R60, R61). -/
inductive Instr where
  /-- `INIT dest` (R80). -/
  | init (dest : Word)
  /-- `PUT value, num_bits` (R81). -/
  | put (value : Word) (numBits : BitVec 6)
  /-- `FIN` (R82). -/
  | fin
  /-- `HASH3 b0, b1, b2, bits` (R100). -/
  | hash3 (b0 b1 b2 : Byte) (bits : BitVec 6)
  /-- `MCOST position, length` (R110). -/
  | mcost (position : Word) (length : BitVec 10)
  deriving DecidableEq, Repr

/-- One command as it is written in text (R69): a mnemonic with unsigned integers of any size. -/
inductive Line where
  | init (dest : Nat)
  | put (value numBits : Nat)
  | fin
  | hash3 (b0 b1 b2 bits : Nat)
  | mcost (position length : Nat)
  deriving DecidableEq, Repr

end Sys2Proof
end

