-- ==== Sys2Proof/WellFormed.lean ====
section
/-! DEFINITION. Well-formedness: an operand must fit its field (R69). It is the assembler's only test. Operands that
fit the field but lie outside an operation's domain are well formed; they fault when executed (R63, R137). -/

namespace Sys2Proof

/-- R69: the operands an assembler accepts are those that fit their fields. -/
def Line.fits : Line → Bool
  | .init dest => dest < 2 ^ 32
  | .put value numBits => value < 2 ^ 32 && numBits < 64
  | .fin => true
  | .hash3 b0 b1 b2 bits => b0 < 256 && b1 < 256 && b2 < 256 && bits < 64
  | .mcost position length => position < 2 ^ 32 && length < 1024

/-- The line that writes an instruction (R69). -/
def Instr.toLine : Instr → Line
  | .init dest => .init dest.toNat
  | .put value numBits => .put value.toNat numBits.toNat
  | .fin => .fin
  | .hash3 b0 b1 b2 bits => .hash3 b0.toNat b1.toNat b2.toNat bits.toNat
  | .mcost position length => .mcost position.toNat length.toNat

/-- An instruction is well formed when the line that writes it fits its fields. The widths of `Instr` see to that
(`Sys2Proof.Laws.instr_wf`), so every instruction has an encoding. -/
def Instr.wf (i : Instr) : Bool := i.toLine.fits

end Sys2Proof
end

