-- ==== Sys2Proof/Decode.lean ====
section
/-! DEFINITION. The command word: its fields (R60, R61), the opcode table (R62), the total decoder (R63), the encoder
(R60, R69), and the host's view of a table word. -/

namespace Sys2Proof

/-- `op`, CW[3:0] (R60). -/
def fieldOp (w : PortWord) : BitVec 4 := w.extractLsb' 0 4
/-- `n`, CW[9:4] (R60). -/
def fieldN (w : PortWord) : BitVec 6 := w.extractLsb' 4 6
/-- `len`, CW[19:10] (R60). -/
def fieldLen (w : PortWord) : BitVec 10 := w.extractLsb' 10 10
/-- `rsv`, CW[31:20] (R60). -/
def fieldRsv (w : PortWord) : BitVec 12 := w.extractLsb' 20 12
/-- `a`, CW[63:32] (R60). -/
def fieldA (w : PortWord) : Word := w.extractLsb' 32 32

/-- `b0`, CW[39:32] (R61). -/
def fieldB0 (w : PortWord) : Byte := w.extractLsb' 32 8
/-- `b1`, CW[47:40] (R61). -/
def fieldB1 (w : PortWord) : Byte := w.extractLsb' 40 8
/-- `b2`, CW[55:48] (R61). -/
def fieldB2 (w : PortWord) : Byte := w.extractLsb' 48 8
/-- `a[31:24]`, CW[63:56], which HASH3 requires to be zero (R61). -/
def fieldAHigh (w : PortWord) : Byte := w.extractLsb' 56 8

/-- Why a word is illegal (R67). -/
inductive IllegalReason where
  /-- `op` is 0 or 6 to 15. -/
  | reservedOp
  /-- `op` is legal and a must-be-zero field of its operation is not zero. -/
  | nonzeroField
  deriving DecidableEq, Repr

/-- What a command word decodes to (R63). -/
inductive Decoded where
  | instr (i : Instr)
  | illegal (why : IllegalReason)
  deriving DecidableEq, Repr

/-- An operation whose must-be-zero fields were tested (R63). -/
def requireZero (zero : Bool) (i : Instr) : Decoded :=
  if zero then .instr i else .illegal .nonzeroField

/-- R63: decoding looks at `op`, then at the must-be-zero fields of that operation (R62), and at no state. -/
def decode (w : PortWord) : Decoded :=
  if fieldOp w = 1 then
    requireZero (fieldN w = 0 && fieldLen w = 0 && fieldRsv w = 0) (.init (fieldA w))
  else if fieldOp w = 2 then
    requireZero (fieldLen w = 0 && fieldRsv w = 0) (.put (fieldA w) (fieldN w))
  else if fieldOp w = 3 then
    requireZero (fieldN w = 0 && fieldLen w = 0 && fieldRsv w = 0 && fieldA w = 0) .fin
  else if fieldOp w = 4 then
    requireZero (fieldLen w = 0 && fieldRsv w = 0 && fieldAHigh w = 0)
      (.hash3 (fieldB0 w) (fieldB1 w) (fieldB2 w) (fieldN w))
  else if fieldOp w = 5 then
    requireZero (fieldN w = 0 && fieldRsv w = 0) (.mcost (fieldA w) (fieldLen w))
  else .illegal .reservedOp

/-- R60: `{a, rsv, len, n, op}` with `rsv` zero. -/
def packCommand (op : BitVec 4) (n : BitVec 6) (len : BitVec 10) (a : Word) : PortWord :=
  (a ++ 0#12 ++ len ++ n ++ op : BitVec (32 + 12 + 10 + 6 + 4))

/-- The main operand of HASH3: `a = b0 + b1 * 2^8 + b2 * 2^16`, `a[31:24]` zero (R61, R69). -/
def packWindow (b0 b1 b2 : Byte) : Word := (0#8 ++ b2 ++ b1 ++ b0 : BitVec (8 + 8 + 8 + 8))

/-- The word of an instruction (R69). -/
def encode : Instr → PortWord
  | .init dest => packCommand 1 0 0 dest
  | .put value numBits => packCommand 2 numBits 0 value
  | .fin => packCommand 3 0 0 0
  | .hash3 b0 b1 b2 bits => packCommand 4 bits 0 (packWindow b0 b1 b2)
  | .mcost position length => packCommand 5 0 length position

/-- A row of the opcode table (R62): a word selects the row when `word & mask = value`. -/
structure OpcodeRow where
  mnemonic : String
  mask : PortWord
  value : PortWord
  deriving DecidableEq, Repr

/-- The opcode table as R62 and spec/opcode_table.json print it. -/
def opcodeTable : List OpcodeRow :=
  [ ⟨"INIT", 0x00000000FFFFFFFF, 0x0000000000000001⟩,
    ⟨"PUT", 0x00000000FFFFFC0F, 0x0000000000000002⟩,
    ⟨"FIN", 0xFFFFFFFFFFFFFFFF, 0x0000000000000003⟩,
    ⟨"HASH3", 0xFF000000FFFFFC0F, 0x0000000000000004⟩,
    ⟨"MCOST", 0x00000000FFF003FF, 0x0000000000000005⟩ ]

/-- R62: the word selects the row. -/
def OpcodeRow.selects (r : OpcodeRow) (w : PortWord) : Bool := w &&& r.mask = r.value

/-- The row's name of an instruction (R62). -/
def Instr.mnemonic : Instr → String
  | .init _ => "INIT"
  | .put _ _ => "PUT"
  | .fin => "FIN"
  | .hash3 _ _ _ _ => "HASH3"
  | .mcost _ _ => "MCOST"

/-- The instruction of a decoded word, if the word is legal. -/
def Decoded.instr? : Decoded → Option Instr
  | .instr i => some i
  | .illegal _ => none

/-- The command word whose low `nbits` bits are `w`, the bits above them zero (the table numbers bits as R60 does, and
words have no byte order, R60). -/
def tableWord (nbits w : Nat) : PortWord := BitVec.ofNat 64 (w % 2 ^ nbits)

/-- The instruction the decoder reads from a word of the opcode table, none where the word is illegal. -/
def decodeTableWord (nbits w : Nat) : Option Instr := (decode (tableWord nbits w)).instr?

end Sys2Proof
end

