-- ==== Sys2Proof/Config.lean ====
section
/-! DEFINITION. What is fixed for a run: the shape of the format's constants (R6, R7) and of the parameters of one
instance (R8), and the free values, opaque constants about which nothing can be proved. The numbers themselves stand
in Machine/Parameters.lean. -/

namespace Sys2Proof

/-- One length class (R7): its selector cost CSEL, its extra bits XB, the exclusive bound LIM of `length - 3`. -/
structure LengthClass where
  selectorBits : Nat
  extraBits : Nat
  limit : Nat
  deriving DecidableEq, Repr

/-- The format constants (R6) with the length classes in rank order (R7). -/
structure Format where
  windowBits : Nat
  numSlots : Nat
  slotBits : Nat
  minMatch : Nat
  maxMatch : Nat
  literalCost : Nat
  selectorBits : Nat
  classes : List LengthClass
  deriving DecidableEq, Repr

/-- A set of output addresses without a gap, both ends inside (a piece of Granted, R42). -/
structure Region where
  first : Word
  last : Word
  deriving DecidableEq, Repr

/-- In which order HASH3 combines its three bytes (the open parameter of R101, U10). -/
inductive WindowOrder where
  /-- The byte at `p` least significant: the default of R101. -/
  | byte0Lowest
  /-- The byte at `p` most significant: "the other order" of R101. -/
  | byte0Highest
  /-- Any other bijection onto 24 bits (92, open parameters); its values are free (log entry 6). -/
  | other
  deriving DecidableEq, Repr

/-- The parameters of one instance that no command can change (R8, R31, R32). -/
structure Build where
  /-- HASH_MULT (R102): odd, below 2^32. -/
  hashMult : Word
  /-- POS_MIN (R111): 0 or 1. -/
  posMin : Fin 2
  /-- The byte-combine order of HASH3 (R101). -/
  windowOrder : WindowOrder
  deriving DecidableEq, Repr

/-- The limit the spec sets on HASH_MULT (R8, R102): it is odd. -/
abbrev Build.wf (b : Build) : Prop := b.hashMult.toNat % 2 = 1

/-- FREE VALUE: what OUT_PTR holds after the n-th hardware reset (R34, R160, U12; log entry 1). -/
opaque Config.resetOutPtr : Nat → Word

/-- FREE VALUE: how many of its byte writes a command in progress has made when the n-th hardware reset discards it
(R160, R43; log entry 3). -/
opaque Config.landedBytes : Nat → Nat

/-- FREE VALUE: the bijection that `WindowOrder.other` stands for, after the little-endian combination (U10; log
entry 6). -/
opaque Config.otherWindowOrder : Equiv.Perm (BitVec 24)

end Sys2Proof
end

