-- ==== Sys2Proof/Machine/Parameters.lean ====
section
/-! DEFINITION. The values of the constants and parameters: the CRUSH format (R6, R7), the spec's default parameters of
an instance (R8, R101), and the grant a run starts with when the host says no more. -/

namespace Sys2Proof.Machine

/-- The format constants of R6 with the class table of R7. -/
def crush : Format where
  windowBits := 21
  numSlots := 16
  slotBits := 4
  minMatch := 3
  maxMatch := 566
  literalCost := 9
  selectorBits := 1
  classes :=
    [⟨1, 2, 4⟩, ⟨2, 2, 8⟩, ⟨3, 2, 12⟩, ⟨4, 3, 20⟩, ⟨5, 5, 52⟩, ⟨5, 9, 564⟩]

/-- M_BASE, the baseline magnitude level (R6). -/
def magnitudeBase (f : Format) : Nat := f.windowBits - f.numSlots

/-- NEAR_BITS, the offset bits of the near slots (R6). -/
def nearBits (f : Format) : Nat := f.windowBits - (f.numSlots - 1)

/-- W_SIZE, the window size in bytes (R6). -/
def windowSize (f : Format) : Nat := 2 ^ f.windowBits

/-- POS_MAX, the greatest legal position of MCOST (R8, R111). -/
def positionMax (f : Format) : Nat := windowSize f - 1

/-- The defaults of R8 and R101: HASH_MULT = 2654435761, POS_MIN = 1, little-endian window (log entries 4, 5, 6). -/
def defaultBuild : Build where
  hashMult := 2654435761#32
  posMin := 1
  windowOrder := .byte0Lowest

/-- The whole address space: what 95_test_vectors takes as Granted unless it says otherwise (log entry 7). -/
def wholeSpace : List Region := [⟨0x00000000#32, 0xFFFFFFFF#32⟩]

end Sys2Proof.Machine
end

