-- ==== Sys2Proof/Machine/State.lean ====
section
/-! DEFINITION. The state of one instance of the block (R20), the host's events that drive it (R175), the causes of the
fault latch (R131), and the state after reset (R34, R160). -/

namespace Sys2Proof.Machine

/-- The causes the fault latch can hold (R131). Taking one is a NEXT state: see `State.raise`. -/
inductive Cause where
  /-- The word decodes as illegal (R132). -/
  | illegalCmd
  /-- An operand fits its field and lies outside the operation's domain (R137). -/
  | badOperand
  /-- PUT or FIN while ACTIVE = 0 (R134). -/
  | notActive
  /-- PUT whose pre-flush would take the count below zero (R138). -/
  | putUnderflow
  /-- PUT or FIN with a target address outside Granted (R135). -/
  | busError
  deriving DecidableEq, Repr

/-- Faults that would end a run of the model. There are none: every fault of the spec is latched and answered, and the
block goes on answering (R133, R136), so each is a next state (log entry 14). Nobody raises one; safe. -/
inductive Fault where
  deriving DecidableEq, Repr

/-- Refusals of the model. -/
inductive Refusal where
  /-- Raised by an arm of `exec` whose instruction has no meaning yet; no arm is left without one, so nobody raises it.
  Safe: it stops where the hardware goes on. -/
  | notModelled (mnemonic : String)
  deriving DecidableEq, Repr

/-- Output memory (R40): the bytes written so far, addresses strictly rising. An address that is not listed still holds
what it held at launch, which the spec leaves open (R34, U13): it reads as no value (log entry 10). -/
abbrev Memory := List Host.Cell

/-- The canonical form of memory: addresses strictly rising, all inside the 2^32 bytes of R40. -/
abbrev Memory.wf (m : Memory) : Prop :=
  m.Pairwise (fun x y => x.1 < y.1) ∧ ∀ c ∈ m, c.1 < 2 ^ 32

/-- What the host does to the block (R175). -/
inductive HostEvent where
  /-- Presents one command word (R60). -/
  | command (cw : PortWord)
  /-- Asserts hardware reset and launches with this Granted set (R160, glossary "Launch"). -/
  | reset (granted : List Region)
  /-- Asserts hardware reset while this command is in progress, which discards it (R160). -/
  | resetDuring (cw : PortWord) (granted : List Region)
  /-- Writes one byte of output memory itself (R168). -/
  | hostWrite (addr : Word) (value : Byte)
  deriving DecidableEq, Repr

/-- The state of one instance. The first six fields are the spec's (R20); the others are the model's own (log entries
2, 9, 11, 12). -/
structure State where
  /-- ACC, the accumulator (R21). -/
  acc : Word
  /-- CNT, the number of valid bits in ACC (R22). -/
  cnt : BitVec 6
  /-- OUT_PTR, the output cursor (R25). -/
  outPtr : Word
  /-- ACTIVE, the packer is bound (R28). -/
  active : Bool
  /-- FAULT, the cause latch (R30): none is code 0. -/
  fault : Option Cause
  /-- Output memory (R40). -/
  mem : Memory
  /-- The response words produced so far, oldest first (R64). -/
  responses : List PortWord
  /-- The host's events still to come, oldest first (R29, R32). -/
  pending : List HostEvent
  /-- Granted, the launch parameter of R42. -/
  granted : List Region
  /-- The parameters of the instance (R8, R32). -/
  build : Build
  /-- How many hardware resets the run has seen: it selects the free values of a reset. -/
  resets : Nat
  deriving DecidableEq, Repr

/-- The state right after reset (R34, R160), with the spec's default parameters. -/
def State.reset : State where
  acc := 0
  cnt := 0
  outPtr := Config.resetOutPtr 0
  active := false
  fault := none
  mem := []
  responses := []
  pending := []
  granted := wholeSpace
  build := defaultBuild
  resets := 0

end Sys2Proof.Machine
end

