-- ==== Sys2Proof/Machine/Flags.lean ====
section
/-! DEFINITION. Codes and status words: the codes of the fault latch (R131), the status of a response (R65), the
response word (R64), and the STATUS view (R31). -/

namespace Sys2Proof.Machine

/-- The code of a cause (R131). -/
def Cause.code : Cause → BitVec 4
  | .illegalCmd => 1
  | .badOperand => 2
  | .notActive => 3
  | .putUnderflow => 4
  | .busError => 5

/-- FAULT as the 4 bits of R30: 0 is no fault. -/
def State.faultCode (s : State) : BitVec 4 :=
  match s.fault with
  | none => 0
  | some c => c.code

/-- The status of a response (R65). -/
inductive Status where
  /-- The command completed; the result is valid. -/
  | ok
  /-- The command raised this fault. -/
  | raised (c : Cause)
  /-- The command was refused, because FAULT was not zero. -/
  | faulted
  deriving DecidableEq, Repr

/-- The status code (R65). -/
def Status.code : Status → BitVec 4
  | .ok => 0
  | .raised c => c.code
  | .faulted => 15

/-- The response word: `result` in RW[31:0], `status` in RW[35:32], zero above (R64). -/
def responseWord (status : Status) (result : Word) : PortWord :=
  (0#28 ++ status.code ++ result : BitVec (28 + 4 + 32))

/-- The STATUS view: FAULT in bits 3:0, ACTIVE in bit 4, CNT in bits 10:5, zero above (R31; its width is the model's,
log entry 15). -/
def State.status (s : State) : Word :=
  (0#21 ++ s.cnt ++ BitVec.ofBool s.active ++ s.faultCode : BitVec (21 + 6 + 1 + 4))

end Sys2Proof.Machine
end

