-- ==== Sys2Proof/Machine/Operands.lean ====
section
/-! DEFINITION. Operand arithmetic: byte counts (R11), the bytes and addresses of a flush (R48, R27), the pre-flush
count (R83), the HASH3 window (R101), and the operand domains (R137). -/

namespace Sys2Proof.Machine

/-- `ceil8(c) = floor((c + 7) / 8)` (R11). -/
def ceil8 (c : Nat) : Nat := (c + 7) / 8

/-- The bytes a flush of `k` bytes takes from the accumulator: byte `i` is `ACC[8i+7 : 8i]` (R45, R48). -/
def flushBytes (acc : Word) (k : Nat) : List Byte :=
  (List.range k).map fun i => acc.extractLsb' (8 * i) 8

/-- The addresses a flush of `k` bytes writes: `trunc_32(OUT_PTR + i)` (R27, R48). -/
def flushAddrs (outPtr : Word) (k : Nat) : List Word :=
  (List.range k).map fun i => outPtr + BitVec.ofNat 32 i

/-- The pre-flush byte count `k` of a PUT of `n` bits at count `c` (R81, R83). -/
def preflushCount (c n : Nat) : Nat :=
  if c > 32 - n then ceil8 (c - (32 - n)) else 0

/-- R137 (a) and (b), R81 checks 1 and 2: the operands of PUT are in its domain. -/
def putInDomain (value : Word) (n : BitVec 6) : Bool :=
  n.toNat ≤ 32 && value.toNat < 2 ^ n.toNat

/-- R137 (c), R100: `bits` of HASH3 is in 1..32. -/
def hashInDomain (bits : BitVec 6) : Bool :=
  1 ≤ bits.toNat && bits.toNat ≤ 32

/-- R137 (d) and (e), R111: the operands of MCOST are in its domain. -/
def costInDomain (f : Format) (posMin : Nat) (position : Word) (length : BitVec 10) : Bool :=
  f.minMatch ≤ length.toNat && length.toNat ≤ f.maxMatch
    && posMin ≤ position.toNat && position.toNat ≤ positionMax f

/-- Three bytes as a 24-bit value, least significant first (R100). -/
def threeBytes (low mid high : Byte) : BitVec 24 := (high ++ mid ++ low : BitVec (8 + 8 + 8))

/-- The combine step of HASH3 (R101), for each order the open parameter allows (U10). -/
def combineWindow (o : WindowOrder) (b0 b1 b2 : Byte) : BitVec 24 :=
  match o with
  | .byte0Lowest => threeBytes b0 b1 b2
  | .byte0Highest => threeBytes b2 b1 b0
  | .other => Config.otherWindowOrder (threeBytes b0 b1 b2)

end Sys2Proof.Machine
end

