-- ==== Sys2Proof/Machine/Ops.lean ====
section
/-! DEFINITION. The named operations over memory and state: the byte write (R41), Granted (R42), the flush (R48), the
response (R64), fault entry and the one way out of it (R133, R136, R141, R160), and the front end that every operation
shares (R139). -/

namespace Sys2Proof.Machine

/-- The byte at an address, or none where nothing has been written since launch (R44, U13). The host reads output memory
through this; the block never reads it (R40). -/
def Memory.read : Memory → Nat → Option Byte
  | [], _ => none
  | (b, v) :: m, a => if a = b then some v else Memory.read m a

/-- `MemWrite(addr, 1, v)` (R41): replaces one byte and keeps the canonical form. -/
def Memory.write : Memory → Nat → Byte → Memory
  | [], a, v => [(a, v)]
  | (b, w) :: m, a, v =>
    if a < b then (a, v) :: (b, w) :: m
    else if a = b then (a, v) :: m
    else (b, w) :: Memory.write m a v

/-- Writes a list of bytes at rising addresses, modulo 2^32 (R27, R48). -/
def Memory.writeFrom : Memory → Word → List Byte → Memory
  | m, _, [] => m
  | m, p, v :: vs => Memory.writeFrom (Memory.write m p.toNat v) (p + 1) vs

/-- The address lies in the region. -/
def regionHas (r : Region) (a : Word) : Bool := r.first ≤ a && a ≤ r.last

/-- The address is in Granted (R42). -/
def State.isGranted (s : State) (a : Word) : Bool := s.granted.any fun r => regionHas r a

/-- All `k` addresses a flush would write are in Granted (R135). -/
def State.mayFlush (s : State) (k : Nat) : Bool := (flushAddrs s.outPtr k).all s.isGranted

/-- Writes the lowest `k` bytes of ACC at the cursor and advances it (R26, R27, R48). -/
def State.commit (s : State) (k : Nat) : State :=
  { s with
    mem := Memory.writeFrom s.mem s.outPtr (flushBytes s.acc k)
    outPtr := s.outPtr + BitVec.ofNat 32 k }

/-- `respond(status, result)` (R11, R64). -/
def State.respond (s : State) (status : Status) (result : Word) : State :=
  { s with responses := s.responses ++ [responseWord status result] }

/-- Fault entry, `raise X` (R133): the latch takes the cause, the response carries its code, nothing else changes. -/
def State.raise (s : State) (c : Cause) : State :=
  State.respond { s with fault := some c } (.raised c) 0

/-- What a command meets while a fault is latched: the response (FAULTED, 0) and no change (R136). -/
def State.refuse (s : State) : State := s.respond .faulted 0

/-- Hardware reset, the only return from a fault (R141, R160): ACC, CNT, ACTIVE and FAULT become 0, OUT_PTR becomes a free
value, output memory stays; a new launch begins with the host's Granted set. -/
def State.hardReset (s : State) (granted : List Region) : State :=
  { s with
    acc := 0
    cnt := 0
    outPtr := Config.resetOutPtr (s.resets + 1)
    active := false
    fault := none
    granted := granted
    resets := s.resets + 1 }

/-- Steps 3 to 7 of R139: the first check that fires raises its fault; if none does, the operation is executed. -/
def State.checked (s : State) (check : Option Cause) (done : State) : State :=
  match check with
  | some c => s.raise c
  | none => done

/-- Step 1 of R139, shared by every operation: while FAULT is latched the command is refused (R136). Every command ends in
a next state (R173). -/
def State.frontEnd (s : State) (run : State → State) : Host.Outcome State Fault Refusal :=
  .next (if s.fault.isSome then s.refuse else run s)

end Sys2Proof.Machine
end

