-- ==== Sys2Proof/Machine/BitPacker.lean ====
section
/-! DEFINITION. The Bit Packer: INIT (R80), PUT (R81) and FIN (R82). -/

namespace Sys2Proof.Machine

/-- INIT (R80): binds the cursor and empties the Bit Register, whatever ACTIVE holds (R89). -/
def execInit (dest : Word) (s : State) : Host.Outcome State Fault Refusal :=
  s.frontEnd fun s =>
    State.respond { s with outPtr := dest, acc := 0, cnt := 0, active := true } .ok dest

/-- The pre-flush byte count of a PUT of `n` bits in this state (R83). -/
def State.putFlush (s : State) (n : BitVec 6) : Nat := preflushCount s.cnt.toNat n.toNat

/-- The checks of PUT in the order of R81. -/
def State.putCheck (s : State) (value : Word) (n : BitVec 6) : Option Cause :=
  if putInDomain value n = false then some .badOperand
  else if s.active = false then some .notActive
  else if s.cnt.toNat < 8 * s.putFlush n then some .putUnderflow
  else if s.mayFlush (s.putFlush n) = false then some .busError
  else none

/-- The pre-flush (R81): the lowest `k` bytes are committed, the register shifts down by `8k` bits. -/
def State.preflush (s : State) (k : Nat) : State :=
  { s.commit k with
    acc := s.acc >>> (8 * k)
    cnt := BitVec.ofNat 6 (s.cnt.toNat - 8 * k) }

/-- The merge (R81, R85): the new bits are OR'ed in above the current count. -/
def State.merge (s : State) (value : Word) (n : BitVec 6) : State :=
  { s with
    acc := s.acc ||| (value <<< s.cnt.toNat)
    cnt := BitVec.ofNat 6 (s.cnt.toNat + n.toNat) }

/-- What PUT does after its checks (R81). -/
def State.putDone (s : State) (value : Word) (n : BitVec 6) : State :=
  let t := (s.preflush (s.putFlush n)).merge value n
  t.respond .ok t.outPtr

/-- PUT (R81): appends `n` bits of `value` to the stream. -/
def execPut (value : Word) (n : BitVec 6) (s : State) : Host.Outcome State Fault Refusal :=
  s.frontEnd fun s => s.checked (s.putCheck value n) (s.putDone value n)

/-- The number of bytes FIN drains (R82). -/
def State.finFlush (s : State) : Nat := ceil8 s.cnt.toNat

/-- The checks of FIN in the order of R82. -/
def State.finCheck (s : State) : Option Cause :=
  if s.active = false then some .notActive
  else if s.mayFlush s.finFlush = false then some .busError
  else none

/-- What FIN does after its checks (R82, R88): the rest of the stream is committed, the packer is unbound. -/
def State.finDone (s : State) : State :=
  let t := { s.commit s.finFlush with acc := 0, cnt := 0, active := false }
  t.respond .ok t.outPtr

/-- FIN (R82): drains the Bit Register and unbinds the packer. -/
def execFin (s : State) : Host.Outcome State Fault Refusal :=
  s.frontEnd fun s => s.checked s.finCheck s.finDone

end Sys2Proof.Machine
end

