-- ==== Sys2Proof/Machine/CandidateHash.lean ====
section
/-! DEFINITION. The Candidate Hash: HASH3 (R100). -/

namespace Sys2Proof.Machine

/-- The hash of a window (R100): the product with HASH_MULT modulo 2^32, shifted right to keep the top `bits` bits. -/
def hashWindow (b : Build) (b0 b1 b2 : Byte) (bits : Nat) : Word :=
  ((combineWindow b.windowOrder b0 b1 b2).setWidth 32 * b.hashMult) >>> (32 - bits)

/-- HASH3 (R100): a pure function of the command word and the parameters; it reads and writes no packer state. -/
def execHash3 (b0 b1 b2 : Byte) (bits : BitVec 6) (s : State) : Host.Outcome State Fault Refusal :=
  s.frontEnd fun s =>
    s.checked (if hashInDomain bits then none else some .badOperand)
      (s.respond .ok (hashWindow s.build b0 b1 b2 bits.toNat))

end Sys2Proof.Machine
end

