-- ==== Sys2Proof/Machine/MatchCost.lean ====
section
/-! DEFINITION. The Match Cost Model: MCOST (R110). -/

namespace Sys2Proof.Machine

/-- The length step (R112): the first class whose bound exceeds `l`, the last class being the fallback, charges its
selector and its extra bits. -/
def classCost : List LengthClass → Nat → Nat
  | [], _ => 0
  | [c], _ => c.selectorBits + c.extraBits
  | c :: d :: cs, l => if l < c.limit then c.selectorBits + c.extraBits else classCost (d :: cs) l

/-- The magnitude step (R113): raise `m` while `position >= 2^(m+1)`, at most `fuel` times. -/
def magnitudeFrom : Nat → Nat → Nat → Nat
  | 0, m, _ => m
  | fuel + 1, m, position =>
    if 2 ^ (m + 1) ≤ position then magnitudeFrom fuel (m + 1) position else m

/-- The magnitude level (R113). The loop runs at most `windowBits` times, more than any legal position needs (R173; log
entry 16). -/
def magnitude (f : Format) (position : Nat) : Nat :=
  magnitudeFrom f.windowBits (magnitudeBase f) position

/-- The distance step (R114): the slot index and the offset bits. -/
def distanceCost (f : Format) (position : Nat) : Nat :=
  f.slotBits +
    (if magnitude f position > magnitudeBase f then magnitude f position else nearBits f)

/-- The cost of a match in bits (R110). -/
def matchCost (f : Format) (position length : Nat) : Nat :=
  f.selectorBits + classCost f.classes (length - f.minMatch) + distanceCost f position

/-- MCOST (R110): a pure function of its operands; it reads and writes no packer state. -/
def execMcost (position : Word) (length : BitVec 10) (s : State) : Host.Outcome State Fault Refusal :=
  s.frontEnd fun s =>
    s.checked
      (if costInDomain crush s.build.posMin.val position length then none else some .badOperand)
      (s.respond .ok (BitVec.ofNat 32 (matchCost crush position.toNat length.toNat)))

end Sys2Proof.Machine
end

