-- ==== Sys2Proof/Machine/Dispatch.lean ====
section
/-! DEFINITION. The meaning of every operation (R62), one arm each. -/

namespace Sys2Proof.Machine

def exec (i : Instr) (s : State) : Host.Outcome State Fault Refusal :=
  match i with
  | .init dest => Sys2Proof.Machine.execInit dest s
  | .put value numBits => Sys2Proof.Machine.execPut value numBits s
  | .fin => Sys2Proof.Machine.execFin s
  | .hash3 b0 b1 b2 bits => Sys2Proof.Machine.execHash3 b0 b1 b2 bits s
  | .mcost position length => Sys2Proof.Machine.execMcost position length s

end Sys2Proof.Machine
end

