-- ==== Sys2Proof/Machine/Command.lean ====
section
/-! DEFINITION. What the block does with each event of the host (R175): a command word (R139), a hardware reset (R160),
and the host's own writes of output memory (R168). -/

namespace Sys2Proof.Machine

/-- An illegal word raises ILLEGAL_CMD (R67, R132), after the latch was tested (R139 steps 1 and 2). -/
def execIllegal (s : State) : Host.Outcome State Fault Refusal :=
  s.frontEnd fun s => s.raise .illegalCmd

/-- One command word through the sequence of R139. A word met while FAULT is latched is refused whatever it decodes to,
because each meaning tests the latch first (R136). -/
def runCommand (cw : PortWord) (s : State) : Host.Outcome State Fault Refusal :=
  match decode cw with
  | .instr i => exec i s
  | .illegal _ => execIllegal s

/-- The bytes a command writes if it is left to complete in this state: none while FAULT is latched, none if one of its
checks fires (R136, R140). -/
def State.bytesOf (s : State) (i : Instr) : List Byte :=
  if s.fault.isSome then [] else
  match i with
  | .put value n =>
    if s.putCheck value n = none then flushBytes s.acc (s.putFlush n) else []
  | .fin => if s.finCheck = none then flushBytes s.acc s.finFlush else []
  | .init _ => []
  | .hash3 _ _ _ _ => []
  | .mcost _ _ => []

/-- The bytes a command word writes if it is left to complete in this state: an illegal word writes none (R67). -/
def State.bytesOfWord (s : State) (cw : PortWord) : List Byte :=
  match decode cw with
  | .instr i => s.bytesOf i
  | .illegal _ => []

/-- Hardware reset while a command is in progress (R160): the command is discarded without a response. Its byte writes
are separate and in rising order (R43), so the first few of them have landed; how many is a free value (log entry 3). -/
def State.resetDuring (s : State) (cw : PortWord) (granted : List Region) : State :=
  let landed := (s.bytesOfWord cw).take (Config.landedBytes (s.resets + 1))
  State.hardReset { s with mem := Memory.writeFrom s.mem s.outPtr landed } granted

/-- A byte the host writes itself (R168): output memory changes, the block does not. -/
def State.hostWrite (s : State) (addr : Word) (value : Byte) : State :=
  { s with mem := Memory.write s.mem addr.toNat value }

/-- One event of the host (R175). -/
def runEvent (e : HostEvent) (s : State) : Host.Outcome State Fault Refusal :=
  match e with
  | .command cw => runCommand cw s
  | .reset granted => .next (s.hardReset granted)
  | .resetDuring cw granted => .next (s.resetDuring cw granted)
  | .hostWrite addr value => .next (s.hostWrite addr value)

/-- The state with this event presented next. -/
def State.present (s : State) (e : HostEvent) : State := { s with pending := e :: s.pending }

end Sys2Proof.Machine
end

