-- ==== Sys2Proof/Machine/Step.lean ====
section
/-! DEFINITION. One step: the host's next event, executed whole (R3, R29). -/

namespace Sys2Proof.Machine

/-- One step. The block waits for nothing but the next command (R173); with none at the port it holds its state (R144). -/
def step (s : State) : Host.Outcome State Fault Refusal :=
  match s.pending with
  | [] => .next s
  | e :: rest => runEvent e { s with pending := rest }

/-- The host presents the word as its next event, so that the very next step runs it (log entry 11). -/
def State.withFetchWord (s : State) (nbits w : Nat) : State :=
  s.present (.command (tableWord nbits w))

end Sys2Proof.Machine
end

