-- ==== Sys2Proof/Machine/Assembler.lean ====
section
/-! DEFINITION. The assembler of the textual syntax (R69): one command a line, a mnemonic and comma-separated unsigned
integers (decimal, `0x`, `0b`), `;` starts a comment. What the rule leaves to the writer of an assembler (blanks, the
case of hexadecimal digits) is log entry 20. -/

namespace Sys2Proof.Machine

/-- The instruction of a line whose operands fit (R69). -/
def lineInstr : Line → Instr
  | .init dest => .init (BitVec.ofNat 32 dest)
  | .put value numBits => .put (BitVec.ofNat 32 value) (BitVec.ofNat 6 numBits)
  | .fin => .fin
  | .hash3 b0 b1 b2 bits =>
    .hash3 (BitVec.ofNat 8 b0) (BitVec.ofNat 8 b1) (BitVec.ofNat 8 b2) (BitVec.ofNat 6 bits)
  | .mcost position length => .mcost (BitVec.ofNat 32 position) (BitVec.ofNat 10 length)

/-- R69: the word of a line, refused when an operand does not fit its field. -/
def assemble (l : Line) : Option PortWord :=
  if l.fits then some (encode (lineInstr l)) else none

/-- A space or a tab. -/
def isBlank (c : Char) : Bool := c = ' ' || c = '\t'

/-- The text without blanks at its two ends. -/
def trimBlanks (cs : List Char) : List Char :=
  ((cs.dropWhile isBlank).reverse.dropWhile isBlank).reverse

/-- The text cut at its commas. -/
def splitCommas : List Char → List (List Char)
  | [] => [[]]
  | c :: cs =>
    if c = ',' then [] :: splitCommas cs
    else
      match splitCommas cs with
      | [] => [[c]]
      | part :: parts => (c :: part) :: parts

/-- The value of a digit in a base up to 16. -/
def digitValue (base : Nat) (c : Char) : Option Nat :=
  let v :=
    if '0' ≤ c && c ≤ '9' then c.toNat - '0'.toNat
    else if 'a' ≤ c && c ≤ 'f' then c.toNat - 'a'.toNat + 10
    else if 'A' ≤ c && c ≤ 'F' then c.toNat - 'A'.toNat + 10
    else base
  if v < base then some v else none

/-- The value of a run of digits after `acc`. -/
def digitsValue (base : Nat) : Nat → List Char → Option Nat
  | acc, [] => some acc
  | acc, c :: cs =>
    match digitValue base c with
    | some d => digitsValue base (acc * base + d) cs
    | none => none

/-- An unsigned integer: decimal, `0x` hexadecimal or `0b` binary (R10, R69). -/
def numberValue : List Char → Option Nat
  | '0' :: 'x' :: d :: ds => digitsValue 16 0 (d :: ds)
  | '0' :: 'b' :: d :: ds => digitsValue 2 0 (d :: ds)
  | d :: ds => digitsValue 10 0 (d :: ds)
  | [] => none

/-- The operands of a line: none written, or integers between commas. -/
def operandValues (cs : List Char) : Option (List Nat) :=
  if cs.isEmpty then some []
  else (splitCommas cs).mapM fun part => numberValue (trimBlanks part)

/-- The line a mnemonic and its operands make (R69). -/
def lineOf (mnemonic : List Char) (operands : List Nat) : Option Line :=
  match operands with
  | [] => if mnemonic = "FIN".toList then some .fin else none
  | [a] => if mnemonic = "INIT".toList then some (.init a) else none
  | [a, b] =>
    if mnemonic = "PUT".toList then some (.put a b)
    else if mnemonic = "MCOST".toList then some (.mcost a b)
    else none
  | [a, b, c, d] => if mnemonic = "HASH3".toList then some (.hash3 a b c d) else none
  | _ => none

/-- What a line of text assembles to. -/
inductive Assembled where
  /-- Nothing but blanks and a comment. -/
  | blank
  /-- A command word. -/
  | word (w : PortWord)
  /-- No command of R69, or an operand that does not fit its field. -/
  | refused
  deriving DecidableEq, Repr

/-- Assembles one line of text (R69). -/
def assembleText (text : List Char) : Assembled :=
  let cs := trimBlanks (text.takeWhile (· ≠ ';'))
  if cs.isEmpty then .blank
  else
    let mnemonic := cs.takeWhile fun c => !isBlank c
    let rest := trimBlanks (cs.dropWhile fun c => !isBlank c)
    match operandValues rest with
    | none => .refused
    | some operands =>
      match lineOf mnemonic operands with
      | none => .refused
      | some l =>
        match assemble l with
        | none => .refused
        | some w => .word w

end Sys2Proof.Machine
end

