-- ==== Sys2Proof/Safety.lean ====
section
/-! DEFINITION. The terms claims are stated in: the invariants of the state (R23), runs and their ends (R174), launch
premises (R176), the stream and its layout in memory (R46, R47), the reference reader (R90), and host-side figures
(R116, R170). -/

namespace Sys2Proof.Machine

/-- R23 (I-a) and (I-b): the count is at most 32 and no bit of ACC stands at or above it. -/
abbrev State.bitRegisterOk (s : State) : Prop :=
  s.cnt.toNat ≤ 32 ∧ s.acc.toNat >>> s.cnt.toNat = 0

/-- The invariant of the state: the Bit Register (R23), the canonical form of memory, the limit on HASH_MULT (R102). -/
abbrev State.Inv (s : State) : Prop :=
  s.bitRegisterOk ∧ s.mem.wf ∧ s.build.wf

/-- Step 1 of R139 lets the command through: no fault is latched (R176 P1). -/
abbrev State.noFault (s : State) : Prop := s.fault = none

/-- The Bit Register of a state a session starts from (R176 P1, P2). -/
abbrev State.launched (s : State) : Prop :=
  s.fault = none ∧ s.active = false ∧ s.acc = 0 ∧ s.cnt = 0

/-- The status field of a response word, RW[35:32] (R64). -/
def responseStatus (rw : PortWord) : BitVec 4 := rw.extractLsb' 32 4

/-- The result field of a response word, RW[31:0] (R64). -/
def responseResult (rw : PortWord) : Word := rw.extractLsb' 0 32

/-- The response of a completed command: `RW = 0 * 2^32 + result` (R64, R65). -/
def okWord (result : Word) : PortWord := BitVec.ofNat 64 result.toNat

/-- The response of a command that raised a fault: `RW = code * 2^32 + 0` (R64, R65). -/
def faultWord (c : Cause) : PortWord := BitVec.ofNat 64 (c.code.toNat * 2 ^ 32)

/-- The state after a command that only answers: nothing changes but the response port. -/
def State.answered (s : State) (rw : PortWord) : State := { s with responses := s.responses ++ [rw] }

/-- The state after a command that raised a fault, all of it (R133): the latch and the response. -/
def State.faultedBy (s : State) (c : Cause) : State :=
  { s with fault := some c, responses := s.responses ++ [faultWord c] }

/-- Executes operations one after the other (R174). -/
def execList : List Instr → State → Host.Outcome State Fault Refusal
  | [], s => .next s
  | i :: is, s =>
    match exec i s with
    | .next t => execList is t
    | .fault f => .fault f
    | .refused r => .refused r

/-- R174: the run is successful, by its end state. -/
abbrev State.successful (s : State) : Prop := s.fault = none

/-- R174: the run is complete, its stream is all in memory. -/
abbrev State.complete (s : State) : Prop := s.fault = none ∧ s.active = false

/-- The low `n` bits of a value, bit 0 first (R46, R87). -/
def valueBits (value : Word) (n : Nat) : List Bool := (List.range n).map value.getLsbD

/-- The stream of a list of PUTs (R46). -/
def streamBits : List (Word × BitVec 6) → List Bool
  | [] => []
  | (value, n) :: puts => valueBits value n.toNat ++ streamBits puts

/-- The operations of one session: INIT, PUTs, FIN (R166). -/
def session (dest : Word) (puts : List (Word × BitVec 6)) : List Instr :=
  .init dest :: (puts.map fun p => Instr.put p.1 p.2) ++ [.fin]

/-- The memory holds these stream bits from `dest` on, bit `q` in bit `q mod 8` of byte `dest + floor(q / 8)`
(R47 (b)). -/
def holdsBits (m : Memory) (dest : Nat) (bits : List Bool) : Prop :=
  ∀ q, q < bits.length →
    ∃ v, Memory.read m (dest + q / 8) = some v ∧ bits[q]? = some (v.getLsbD (q % 8))

/-- The layout law (R47) in a state of the session that began at `dest`, without address wrap: the committed bits are in
memory, the others in ACC. -/
def Layout (dest : Word) (bits : List Bool) (s : State) : Prop :=
  dest.toNat ≤ s.outPtr.toNat ∧
  8 * (s.outPtr.toNat - dest.toNat) + s.cnt.toNat = bits.length ∧
  holdsBits s.mem dest.toNat (bits.take (8 * (s.outPtr.toNat - dest.toNat))) ∧
  ∀ j, j < s.cnt.toNat →
    bits[8 * (s.outPtr.toNat - dest.toNat) + j]? = some (s.acc.getLsbD j)

/-- One bit the reference reader sees (R90): bit `q mod 8` of the byte at `dest + floor(q / 8)`. An unwritten byte
shows as zeros; a session leaves none in its stream (R92). -/
def readBit (m : Memory) (dest q : Nat) : Bool :=
  match Memory.read m (dest + q / 8) with
  | some v => v.getLsbD (q % 8)
  | none => false

/-- `get(n)` of the reference reader at bit position `r` (R90): the sum of the bits times their powers of two. -/
def readerGet (m : Memory) (dest r : Nat) : Nat → Nat
  | 0 => 0
  | n + 1 => readerGet m dest r n + (readBit m dest (r + n)).toNat * 2 ^ n

/-- The values the reference reader returns for a list of widths, from bit position `r` on (R90). -/
def readerGets (m : Memory) (dest : Nat) : Nat → List Nat → List Nat
  | _, [] => []
  | r, n :: ns => readerGet m dest r n :: readerGets m dest (r + n) ns

/-- The source's pre-flush loop, run literally on integers from count `c` for `n` bits (R81, R83): how many turns it
takes and the count it ends with. `fuel` bounds the turns. -/
def preflushLoop : Nat → Int → Nat → Nat × Int
  | 0, c, _ => (0, c)
  | fuel + 1, c, n =>
    if c > 32 - (n : Int) then
      let r := preflushLoop fuel (c - 8) n
      (r.1 + 1, r.2)
    else (0, c)

/-- The state but for output memory: what the prior content of the destination can never influence (R44). -/
def State.withoutMem (s : State) : State := { s with mem := [] }

/-- R170: the host's bound on the output size. The block neither computes nor checks it. DESIGN CHOICE: it is a figure on
natural numbers, which never overflows; the width of the source's `unsigned` and what happens to huge sizes are left open
(N15, U23; log entry 23). -/
def maxPackedSize (srcSize : Nat) : Nat := srcSize + srcSize / 8 + 64

end Sys2Proof.Machine
end

