-- ==== Sys2Proof/Certificates/Slice0/Obligations.lean ====
section
/-! DEFINITION. The statements for the provers, each a proposition about the machine that formalises rules of spec/. -/

open Sys2Proof Sys2Proof.Machine

/-! Reset, the port, and the step. -/

/-- R34: what reset leaves in ACC, CNT, ACTIVE and FAULT. OUT_PTR has no value there (log entry 1). -/
def Obligations.ResetLeavesPackerEmptyAndUnbound : Prop :=
  State.reset.acc = 0 ∧ State.reset.cnt = 0 ∧ State.reset.active = false ∧ State.reset.fault = none

/-- R160: hardware reset clears ACC, CNT, ACTIVE and FAULT, leaves output memory alone, and answers nothing; a command in
progress is discarded without a response. What it leaves in OUT_PTR is not said. -/
def Obligations.HardwareResetClearsBlock : Prop :=
  ∀ (s : State) (cw : PortWord) (g : List Region) (rest : List HostEvent),
    (s.pending = .reset g :: rest →
      ∃ t, step s = .next t ∧ t.acc = 0 ∧ t.cnt = 0 ∧ t.active = false ∧ t.fault = none ∧
        t.mem = s.mem ∧ t.responses = s.responses ∧ t.build = s.build ∧ t.pending = rest) ∧
    (s.pending = .resetDuring cw g :: rest →
      ∃ t, step s = .next t ∧ t.acc = 0 ∧ t.cnt = 0 ∧ t.active = false ∧ t.fault = none ∧
        t.responses = s.responses ∧ t.build = s.build ∧ t.pending = rest)

/-- R160 with R43 (log entry 3): after a reset that discards a command, each address holds what it held before or what the
command, left to complete, would have written there. -/
def Obligations.DiscardedCommandWritesNoForeignByte : Prop :=
  ∀ (s : State) (cw : PortWord) (g : List Region) (rest : List HostEvent) (t u : State),
    s.pending = .resetDuring cw g :: rest → step s = .next t → runCommand cw s = .next u →
      ∀ a, Memory.read t.mem a = Memory.read s.mem a ∨ Memory.read t.mem a = Memory.read u.mem a

/-- R3, R29: a step at which the host presents a legal word is `exec` of the decoded instruction, on the state without that
event; `withFetchWord` presents a word so. -/
def Obligations.StepRunsDecodedInstruction : Prop :=
  (∀ (s : State) (cw : PortWord) (i : Instr) (rest : List HostEvent),
    s.pending = .command cw :: rest → decode cw = .instr i →
      step s = exec i { s with pending := rest }) ∧
  ∀ (s : State) (nbits w : Nat) (i : Instr),
    decodeTableWord nbits w = some i → step (s.withFetchWord nbits w) = exec i s

/-- R144: between commands the block holds its state. -/
def Obligations.IdleBlockHoldsState : Prop :=
  ∀ s : State, s.pending = [] → step s = .next s

/-- R173: no step ends in a stop, whatever the state and the host's event. -/
def Obligations.EveryStepAnswersNextState : Prop :=
  ∀ s : State, ∃ t, step s = .next t

/-- R168: a byte the host writes itself changes that byte and nothing of the block. -/
def Obligations.HostWriteDisturbsNothingElse : Prop :=
  ∀ (s : State) (a : Word) (v : Byte) (rest : List HostEvent),
    s.pending = .hostWrite a v :: rest →
      ∃ t, step s = .next t ∧ t.withoutMem = { s.withoutMem with pending := rest } ∧
        Memory.read t.mem a.toNat = some v ∧
        ∀ b, b ≠ a.toNat → Memory.read t.mem b = Memory.read s.mem b

/-! Invariants. -/

/-- R23 at reset. -/
def Obligations.BitRegisterSoundAtReset : Prop := State.reset.bitRegisterOk

/-- R23, R24: (I-a) and (I-b) hold after reset and every step keeps them, whatever the host does. -/
def Obligations.EveryStepKeepsBitRegisterSound : Prop :=
  State.reset.bitRegisterOk ∧
    ∀ s t : State, s.bitRegisterOk → step s = .next t → t.bitRegisterOk

/-- The canonical form of memory (the model's own, log entry 10) holds after reset and every step keeps it. -/
def Obligations.EveryStepKeepsMemoryCanonical : Prop :=
  State.reset.mem.wf ∧ ∀ s t : State, s.mem.wf → step s = .next t → t.mem.wf

/-- R31, R32 (as held in State, log entries 8 and 9): no step changes the instance's parameters; after a hardware reset,
with or without a command in progress, Granted is the set the event carries, and no other step changes it. -/
def Obligations.NoStepChangesParameters : Prop :=
  ∀ s t : State, step s = .next t →
    t.build = s.build ∧
    (∀ g rest, s.pending = .reset g :: rest → t.granted = g) ∧
    (∀ cw g rest, s.pending = .resetDuring cw g :: rest → t.granted = g) ∧
    ((∀ g rest, s.pending ≠ .reset g :: rest) → (∀ cw g rest, s.pending ≠ .resetDuring cw g :: rest) →
      t.granted = s.granted)

/-! The Bit Packer. -/

/-- R80: INIT binds the cursor and empties the Bit Register, in any lifecycle state; nothing else changes but the response. -/
def Obligations.InitBindsCursorAndEmptiesRegister : Prop :=
  ∀ (dest : Word) (s : State), s.fault = none →
    exec (.init dest) s = .next
      { s with
        outPtr := dest
        acc := 0
        cnt := 0
        active := true
        responses := s.responses ++ [okWord dest] }

/-- R81: the checks of PUT in order, each fault leaving all else alone, and otherwise the pre-flush of `k` bytes and the
merge, with everything else unchanged. -/
def Obligations.PutChecksThenAppends : Prop :=
  ∀ (v : Word) (n : BitVec 6) (s : State) (k : Nat), s.fault = none → s.bitRegisterOk →
    k = (if s.cnt.toNat > 32 - n.toNat then (s.cnt.toNat - (32 - n.toNat) + 7) / 8 else 0) →
    (32 < n.toNat → exec (.put v n) s = .next (s.faultedBy .badOperand)) ∧
    (n.toNat ≤ 32 → 2 ^ n.toNat ≤ v.toNat → exec (.put v n) s = .next (s.faultedBy .badOperand)) ∧
    (n.toNat ≤ 32 → v.toNat < 2 ^ n.toNat →
      (s.active = false → exec (.put v n) s = .next (s.faultedBy .notActive)) ∧
      (s.active = true → s.cnt.toNat < 8 * k → exec (.put v n) s = .next (s.faultedBy .putUnderflow)) ∧
      (s.active = true → 8 * k ≤ s.cnt.toNat →
        (∃ i, i < k ∧ s.isGranted (s.outPtr + BitVec.ofNat 32 i) = false) →
          exec (.put v n) s = .next (s.faultedBy .busError)) ∧
      (s.active = true → 8 * k ≤ s.cnt.toNat →
        (∀ i, i < k → s.isGranted (s.outPtr + BitVec.ofNat 32 i) = true) →
          ∃ t, exec (.put v n) s = .next t ∧
            t.acc.toNat = s.acc.toNat >>> (8 * k) ||| v.toNat <<< (s.cnt.toNat - 8 * k) ∧
            t.cnt.toNat = s.cnt.toNat - 8 * k + n.toNat ∧
            t.outPtr = s.outPtr + BitVec.ofNat 32 k ∧
            t.responses = s.responses ++ [okWord t.outPtr] ∧
            (∀ i, i < k → Memory.read t.mem (s.outPtr + BitVec.ofNat 32 i).toNat =
              some (BitVec.ofNat 8 (s.acc.toNat >>> (8 * i)))) ∧
            (∀ a, (∀ i, i < k → (s.outPtr + BitVec.ofNat 32 i).toNat ≠ a) →
              Memory.read t.mem a = Memory.read s.mem a) ∧
            t.active = true ∧ t.fault = none ∧ t.pending = s.pending ∧ t.granted = s.granted ∧
            t.build = s.build ∧ t.resets = s.resets))

/-- R82: the checks of FIN in order, and otherwise the drain of `ceil8(CNT)` bytes, the packer left empty and unbound, with
everything else unchanged. -/
def Obligations.FinChecksThenDrains : Prop :=
  ∀ (s : State) (k : Nat), s.fault = none → k = (s.cnt.toNat + 7) / 8 →
    (s.active = false → exec .fin s = .next (s.faultedBy .notActive)) ∧
    (s.active = true → (∃ i, i < k ∧ s.isGranted (s.outPtr + BitVec.ofNat 32 i) = false) →
      exec .fin s = .next (s.faultedBy .busError)) ∧
    (s.active = true → (∀ i, i < k → s.isGranted (s.outPtr + BitVec.ofNat 32 i) = true) →
      ∃ t, exec .fin s = .next t ∧ t.acc = 0 ∧ t.cnt = 0 ∧ t.active = false ∧
        t.outPtr = s.outPtr + BitVec.ofNat 32 k ∧
        t.responses = s.responses ++ [okWord t.outPtr] ∧
        (∀ i, i < k → Memory.read t.mem (s.outPtr + BitVec.ofNat 32 i).toNat =
          some (BitVec.ofNat 8 (s.acc.toNat >>> (8 * i)))) ∧
        (∀ a, (∀ i, i < k → (s.outPtr + BitVec.ofNat 32 i).toNat ≠ a) →
          Memory.read t.mem a = Memory.read s.mem a) ∧
        t.fault = none ∧ t.pending = s.pending ∧ t.granted = s.granted ∧
        t.build = s.build ∧ t.resets = s.resets)

/-- R83: the source's pre-flush loop, run literally, takes `k` turns, `k` at most 4, and ends with `c - 8k`, the largest
count congruent to `c` modulo 8 that does not exceed `32 - n`, negative exactly in the case of R84; `k` has the closed form
`floor((c + n - 25) / 8)`, and is 4 exactly from `c + n = 57` on. -/
def Obligations.PreflushLoopTakesCountedTurns : Prop :=
  ∀ (c n fuel k : Nat), c ≤ 32 → n ≤ 32 → 4 ≤ fuel → k = preflushCount c n →
    preflushLoop fuel c n = (k, (c : Int) - 8 * k) ∧ k ≤ 4 ∧
    (32 - n < c → k = (c + n - 25) / 8) ∧
    (c : Int) - 8 * k ≤ 32 - n ∧
    (0 < k → (32 : Int) - n < (c : Int) - 8 * k + 8) ∧
    ((c : Int) - 8 * k < 0 ↔ n > 32 - c % 8) ∧ (k = 4 ↔ 57 ≤ c + n)

/-- R84: PUT_UNDERFLOW is raised exactly when `n > 32 - (CNT mod 8)`, so never for `n <= 25` and never when CNT is a
multiple of 8; it changes no other state and writes no byte. -/
def Obligations.PutUnderflowExactlyWhenCountTooOdd : Prop :=
  ∀ (v : Word) (n : BitVec 6) (s t : State), s.fault = none → s.bitRegisterOk → s.active = true →
    n.toNat ≤ 32 → v.toNat < 2 ^ n.toNat → exec (.put v n) s = .next t →
      (t.fault = some .putUnderflow ↔ n.toNat > 32 - s.cnt.toNat % 8) ∧
      (n.toNat ≤ 25 → t.fault ≠ some .putUnderflow) ∧
      (s.cnt.toNat % 8 = 0 → t.fault ≠ some .putUnderflow) ∧
      (t.fault = some .putUnderflow → t = s.faultedBy .putUnderflow)

/-- R86 (a): while ACTIVE is 1, `PUT 0, 0` changes no state, writes no byte, and answers OUT_PTR. -/
def Obligations.PutOfNoBitsChangesNothing : Prop :=
  ∀ s : State, s.fault = none → s.active = true → s.bitRegisterOk →
    exec (.put 0 0) s = .next (s.answered (okWord s.outPtr))

/-- R88 (e), R134: after a FIN that completed, PUT (with operands in its domain) and FIN raise NOT_ACTIVE. -/
def Obligations.PackerUnusableAfterFin : Prop :=
  ∀ (s t : State) (v : Word) (n : BitVec 6), exec .fin s = .next t → t.fault = none →
    n.toNat ≤ 32 → v.toNat < 2 ^ n.toNat →
      exec (.put v n) t = .next (t.faultedBy .notActive) ∧
      exec .fin t = .next (t.faultedBy .notActive)

/-! The stream in memory. -/

/-- R47 after INIT: the empty stream lies at the destination. -/
def Obligations.InitStartsEmptyStream : Prop :=
  ∀ (dest : Word) (s t : State), s.fault = none → exec (.init dest) s = .next t → Layout dest [] t

/-- R87, R47: a completed PUT appends its bits to the stream, oldest bit first, and keeps the layout law (no address wrap);
after it, `n <= CNT <= 32`. -/
def Obligations.PutExtendsStreamLayout : Prop :=
  ∀ (dest : Word) (bits : List Bool) (v : Word) (n : BitVec 6) (s t : State),
    Layout dest bits s → s.bitRegisterOk → s.fault = none →
    exec (.put v n) s = .next t → t.fault = none → s.outPtr.toNat ≤ t.outPtr.toNat →
      Layout dest (bits ++ valueBits v n.toNat) t ∧ n.toNat ≤ t.cnt.toNat ∧ t.cnt.toNat ≤ 32

/-- R47 after FIN: memory holds the stream from the destination on, the rest of the last byte is zero, and the answer is
`d + ceil8(T)` (no address wrap). -/
def Obligations.FinLeavesWholeStreamInMemory : Prop :=
  ∀ (dest : Word) (bits : List Bool) (s t : State),
    Layout dest bits s → s.bitRegisterOk → s.fault = none →
    exec .fin s = .next t → t.fault = none → s.outPtr.toNat ≤ t.outPtr.toNat →
      t.outPtr.toNat = dest.toNat + ceil8 bits.length ∧
      t.responses = s.responses ++ [okWord t.outPtr] ∧
      holdsBits t.mem dest.toNat (bits ++ List.replicate (8 * ceil8 bits.length - bits.length) false)

/-- R90: what a session packs, the reference reader reads back, for every list of PUTs that completes without fault, where no
byte of the stream lies past the top of the address space (the last may lie at its top). -/
def Obligations.PackedStreamReadsBack : Prop :=
  ∀ (dest : Word) (puts : List (Word × BitVec 6)) (s t : State),
    s.fault = none → execList (session dest puts) s = .next t → t.fault = none →
    dest.toNat + ceil8 (streamBits puts).length ≤ 2 ^ 32 →
      readerGets t.mem dest.toNat 0 (puts.map fun p => p.2.toNat) = puts.map fun p => p.1.toNat

/-- R92: a session without fault writes exactly the bytes `d .. d + ceil8(T) - 1`, and FIN answers `d + ceil8(T)` (no
address wrap). -/
def Obligations.SessionWritesExactlyItsBytes : Prop :=
  ∀ (dest : Word) (puts : List (Word × BitVec 6)) (s t : State),
    s.fault = none → execList (session dest puts) s = .next t → t.fault = none →
    dest.toNat + ceil8 (streamBits puts).length < 2 ^ 32 →
      t.outPtr.toNat = dest.toNat + ceil8 (streamBits puts).length ∧
      t.responses.getLast? = some (okWord t.outPtr) ∧
      (∀ a, dest.toNat ≤ a → a < dest.toNat + ceil8 (streamBits puts).length →
        ∃ b, Memory.read t.mem a = some b) ∧
      ∀ a, a < dest.toNat ∨ dest.toNat + ceil8 (streamBits puts).length ≤ a →
        Memory.read t.mem a = Memory.read s.mem a

/-- R163: `PUT v mod 2^16, 16` followed by `PUT v >> 16, n - 16` appends to the stream the bits `PUT v, n` appends (no
address wrap). -/
def Obligations.SplitPutAppendsSameBits : Prop :=
  ∀ (dest : Word) (bits : List Bool) (v : Word) (n : BitVec 6) (s t : State),
    16 ≤ n.toNat → n.toNat ≤ 32 → Layout dest bits s → s.bitRegisterOk → s.fault = none →
    execList [.put (BitVec.ofNat 32 (v.toNat % 2 ^ 16)) 16, .put (v >>> 16) (n - 16)] s = .next t →
    t.fault = none → s.outPtr.toNat ≤ t.outPtr.toNat →
      Layout dest (bits ++ valueBits v n.toNat) t

/-! The Candidate Hash. -/

/-- R100: HASH3 outside `1 <= bits <= 32` raises BAD_OPERAND; inside, with the window combined as R101 has it, it answers
the top `bits` bits of the product modulo 2^32 and changes nothing. -/
def Obligations.Hash3ChecksThenAnswersHash : Prop :=
  ∀ (b0 b1 b2 : Byte) (bits : BitVec 6) (s : State), s.fault = none →
    (bits.toNat = 0 ∨ 32 < bits.toNat → exec (.hash3 b0 b1 b2 bits) s = .next (s.faultedBy .badOperand)) ∧
    (1 ≤ bits.toNat → bits.toNat ≤ 32 → s.build.windowOrder = .byte0Lowest →
      exec (.hash3 b0 b1 b2 bits) s = .next (s.answered (okWord (BitVec.ofNat 32
        (((b0.toNat + b1.toNat * 2 ^ 8 + b2.toNat * 2 ^ 16) * s.build.hashMult.toNat % 2 ^ 32)
          >>> (32 - bits.toNat))))))

/-- U10, with R100 and R101: for every value of the open order parameter HASH3 completes, with the window value of that
order; the values of `other` are the model's free bijection (log entry 6). -/
def Obligations.Hash3CombinesInParameterOrder : Prop :=
  ∀ (b0 b1 b2 : Byte) (bits : BitVec 6) (s : State), s.fault = none →
    1 ≤ bits.toNat → bits.toNat ≤ 32 → ∃ v : Nat, v < 2 ^ 24 ∧
      (s.build.windowOrder = .byte0Lowest →
        v = b0.toNat + b1.toNat * 2 ^ 8 + b2.toNat * 2 ^ 16) ∧
      (s.build.windowOrder = .byte0Highest →
        v = b2.toNat + b1.toNat * 2 ^ 8 + b0.toNat * 2 ^ 16) ∧
      (s.build.windowOrder = .other → v = (Config.otherWindowOrder
        (BitVec.ofNat 24 (b0.toNat + b1.toNat * 2 ^ 8 + b2.toNat * 2 ^ 16))).toNat) ∧
      exec (.hash3 b0 b1 b2 bits) s = .next (s.answered (okWord (BitVec.ofNat 32
        ((v * s.build.hashMult.toNat % 2 ^ 32) >>> (32 - bits.toNat)))))

/-- R101 and the open parameters of 92: each byte-combine order is a bijection onto the 24-bit values. -/
def Obligations.WindowCombineIsBijective : Prop :=
  ∀ o : WindowOrder,
    Function.Bijective fun w : Byte × Byte × Byte => combineWindow o w.1 w.2.1 w.2.2

/-- R103 (a), (b), (c): two states with the same parameters get the same hash, below `2^bits`, and it is the 32-bit hash
shifted right by `32 - bits`. -/
def Obligations.HashIsBoundedPureAndPrefix : Prop :=
  ∀ (b0 b1 b2 : Byte) (bits : BitVec 6) (s u : State),
    s.fault = none → u.fault = none → s.build = u.build → 1 ≤ bits.toNat → bits.toNat ≤ 32 →
      ∃ r full : Word,
        exec (.hash3 b0 b1 b2 bits) s = .next (s.answered (okWord r)) ∧
        exec (.hash3 b0 b1 b2 bits) u = .next (u.answered (okWord r)) ∧
        exec (.hash3 b0 b1 b2 32) s = .next (s.answered (okWord full)) ∧
        r.toNat < 2 ^ bits.toNat ∧ r.toNat = full.toNat >>> (32 - bits.toNat)

/-- R104 (g): because HASH_MULT is odd, two different windows never have the same 32-bit hash. -/
def Obligations.FullHashSeparatesWindows : Prop :=
  ∀ (b : Build) (b0 b1 b2 c0 c1 c2 : Byte), b.wf →
    hashWindow b b0 b1 b2 32 = hashWindow b c0 c1 c2 32 → b0 = c0 ∧ b1 = c1 ∧ b2 = c2

/-- R104 (c), (d): for the two byte orders the spec names, the zero window hashes to 0; in the default order the window
(1, 0, 0) with 32 bits gives HASH_MULT itself. -/
def Obligations.HashOfZeroAndOfOne : Prop :=
  (∀ (b : Build) (bits : Nat), b.windowOrder ≠ .other → hashWindow b 0 0 0 bits = 0) ∧
  ∀ b : Build, b.windowOrder = .byte0Lowest → hashWindow b 1 0 0 32 = b.hashMult

/-! The Match Cost Model. -/

/-- R110, R111, R112, R114: MCOST outside its domain raises BAD_OPERAND; inside, it answers 1 plus the class cost plus 4
plus the offset bits of the magnitude level, and changes nothing. -/
def Obligations.McostChecksThenAnswersCost : Prop :=
  ∀ (position : Word) (length : BitVec 10) (s : State), s.fault = none →
    (length.toNat < 3 ∨ 566 < length.toNat ∨ position.toNat < s.build.posMin.val ∨
        2 ^ 21 - 1 < position.toNat →
      exec (.mcost position length) s = .next (s.faultedBy .badOperand)) ∧
    (3 ≤ length.toNat → length.toNat ≤ 566 → s.build.posMin.val ≤ position.toNat →
        position.toNat ≤ 2 ^ 21 - 1 →
      ∃ m : Nat, 5 ≤ m ∧ position.toNat < 2 ^ (m + 1) ∧ (m = 5 ∨ 2 ^ m ≤ position.toNat) ∧
        exec (.mcost position length) s = .next (s.answered (okWord (BitVec.ofNat 32
          (1 +
            (if length.toNat ≤ 6 then 1 + 2 else if length.toNat ≤ 10 then 2 + 2
              else if length.toNat ≤ 14 then 3 + 2 else if length.toNat ≤ 22 then 4 + 3
              else if length.toNat ≤ 54 then 5 + 5 else 5 + 9) +
            4 + (if m > 5 then m else 6))))))

/-- R7: six classes; each bound LIM is the running sum of the class sizes `2^XB`, and together they hold exactly the lengths
3 to 566. -/
def Obligations.LengthClassBoundsAreRunningSums : Prop :=
  crush.classes.length = 6 ∧
  (∀ k, k < 6 → (crush.classes.map LengthClass.limit)[k]? =
    some (((crush.classes.take (k + 1)).map fun c => 2 ^ c.extraBits).sum)) ∧
  (crush.classes.map LengthClass.limit).getLast? = some (crush.maxMatch - crush.minMatch + 1)

/-- R113: the magnitude level is 5 below 64 and the index of the highest set bit from there; it is the least level from 5
up whose power of two exceeds the position, and lies in 5..20 over the domain. -/
def Obligations.MagnitudeIsHighestSetBit : Prop :=
  ∀ p : Nat, p < 2 ^ 21 →
    magnitude crush p = (if p < 64 then 5 else Nat.log2 p) ∧
    5 ≤ magnitude crush p ∧ magnitude crush p ≤ 20 ∧ p < 2 ^ (magnitude crush p + 1) ∧
    ∀ m, 5 ≤ m → p < 2 ^ (m + 1) → magnitude crush p ≤ m

/-- R115: over the domain the least cost is 14 and the greatest 39, and both occur. -/
def Obligations.CostLiesBetween14And39 : Prop :=
  (∀ p l : Nat, p < 2 ^ 21 → 3 ≤ l → l ≤ 566 → 14 ≤ matchCost crush p l ∧ matchCost crush p l ≤ 39) ∧
  matchCost crush 1 3 = 14 ∧ matchCost crush (2 ^ 21 - 1) 566 = 39

/-- R118: the cost is constant within a length class, rises by 1, 1, 2, 3, 4 at the class boundaries, does not decrease with
length or position, is equal at levels 5 and 6, and rises by 1 per level from there. -/
def Obligations.CostRisesByClassAndLevel : Prop :=
  (∀ p q l l' : Nat, p ≤ q → q < 2 ^ 21 → 3 ≤ l → l ≤ l' → l' ≤ 566 →
    matchCost crush p l ≤ matchCost crush q l') ∧
  (∀ p lo hi l l' : Nat,
    (lo, hi) ∈ [(3, 6), (7, 10), (11, 14), (15, 22), (23, 54), (55, 566)] →
      lo ≤ l → l ≤ hi → lo ≤ l' → l' ≤ hi → matchCost crush p l = matchCost crush p l') ∧
  (∀ p : Nat,
    matchCost crush p 7 = matchCost crush p 6 + 1 ∧ matchCost crush p 11 = matchCost crush p 10 + 1 ∧
    matchCost crush p 15 = matchCost crush p 14 + 2 ∧ matchCost crush p 23 = matchCost crush p 22 + 3 ∧
    matchCost crush p 55 = matchCost crush p 54 + 4) ∧
  (∀ p q l : Nat, p < 64 → 64 ≤ q → q < 128 → matchCost crush p l = matchCost crush q l) ∧
  ∀ p q l m : Nat, 6 ≤ m → m < 20 → 2 ^ m ≤ p → p < 2 ^ (m + 1) → 2 ^ (m + 1) ≤ q → q < 2 ^ (m + 2) →
    matchCost crush q l = matchCost crush p l + 1

/-! Faults, the latch, responses. -/

/-- R133: a command that raises a fault writes the latch and the response, and nothing else; a latched code is never
overwritten by a command. -/
def Obligations.FaultEntryWritesLatchOnly : Prop :=
  ∀ (cw : PortWord) (s t : State), runCommand cw s = .next t →
    (s.fault = none → t.fault ≠ none →
      ∃ c, t = s.faultedBy c ∧ 1 ≤ c.code.toNat ∧ c.code.toNat ≤ 5) ∧
    (s.fault ≠ none → t.fault = s.fault)

/-- R132: a word that no row of the opcode table selects (its `op` is not 1 to 5, or a must-be-zero field of its operation
is not zero) decodes as illegal; it raises ILLEGAL_CMD and changes nothing else. -/
def Obligations.IllegalWordRaisesIllegalCmd : Prop :=
  ∀ (cw : PortWord) (s : State), s.fault = none → (∀ r ∈ opcodeTable, r.selects cw = false) →
    (∃ why, decode cw = .illegal why) ∧ runCommand cw s = .next (s.faultedBy .illegalCmd)

/-- R137, with R132, R134, R135 and R138: BAD_OPERAND is raised exactly on the operands of the rule's list; ILLEGAL_CMD only
by an illegal word, NOT_ACTIVE only by PUT and FIN while ACTIVE is 0, PUT_UNDERFLOW only by PUT, BUS_ERROR only by PUT and
FIN with one of the next four addresses not granted. -/
def Obligations.CausesBelongToTheirOperations : Prop :=
  ∀ (cw : PortWord) (s t : State), s.fault = none → s.bitRegisterOk → runCommand cw s = .next t →
    (t.fault = some .badOperand ↔
      (∃ v n, decode cw = .instr (.put v n) ∧ (32 < n.toNat ∨ 2 ^ n.toNat ≤ v.toNat)) ∨
      (∃ b0 b1 b2 bits, decode cw = .instr (.hash3 b0 b1 b2 bits) ∧ (bits.toNat = 0 ∨ 32 < bits.toNat)) ∨
      ∃ p l, decode cw = .instr (.mcost p l) ∧ (l.toNat < 3 ∨ 566 < l.toNat ∨
        p.toNat < s.build.posMin.val ∨ 2 ^ 21 - 1 < p.toNat)) ∧
    (t.fault = some .illegalCmd ↔ ∃ why, decode cw = .illegal why) ∧
    (t.fault = some .notActive →
      s.active = false ∧ (decode cw = .instr .fin ∨ ∃ v n, decode cw = .instr (.put v n))) ∧
    (t.fault = some .putUnderflow →
      ∃ v n, decode cw = .instr (.put v n) ∧ n.toNat > 32 - s.cnt.toNat % 8) ∧
    (t.fault = some .busError →
      (decode cw = .instr .fin ∨ ∃ v n, decode cw = .instr (.put v n)) ∧
        ∃ i, i < 4 ∧ s.isGranted (s.outPtr + BitVec.ofNat 32 i) = false)

/-- R136: while a fault is latched every command word is answered (FAULTED, 0) and changes nothing. -/
def Obligations.LatchedFaultRefusesEveryWord : Prop :=
  ∀ (cw : PortWord) (c : Cause) (s : State), s.fault = some c →
    runCommand cw s = .next (s.answered 0x0000000F00000000)

/-- R30, R141: a latched code keeps its value through every step but a hardware reset, which clears it. -/
def Obligations.OnlyResetClearsLatch : Prop :=
  ∀ (s t : State) (c : Cause), s.fault = some c → step s = .next t →
    ((∀ g rest, s.pending ≠ .reset g :: rest) → (∀ cw g rest, s.pending ≠ .resetDuring cw g :: rest) →
      t.fault = some c) ∧
    (∀ g rest, s.pending = .reset g :: rest → t.fault = none) ∧
    (∀ cw g rest, s.pending = .resetDuring cw g :: rest → t.fault = none)

/-- R64: every command word, legal or not, produces exactly one response, `status * 2^32 + result`, with result 0 when the
status is not OK. -/
def Obligations.EveryWordGetsOneResponse : Prop :=
  ∀ (cw : PortWord) (s t : State), runCommand cw s = .next t →
    ∃ (st : Status) (r : Word), t.responses = s.responses ++ [responseWord st r] ∧
      (responseWord st r).toNat = st.code.toNat * 2 ^ 32 + r.toNat ∧ (st ≠ .ok → r = 0)

/-- R174: a run of commands gets one response per word and is successful (every response OK) exactly when FAULT is 0 at its
end. The ports are the lists of log entries 11 and 12. -/
def Obligations.RunSuccessfulIffNoFaultAtEnd : Prop :=
  ∀ (ws : List PortWord) (s t : State), s.fault = none → s.responses = [] →
    s.pending = ws.map HostEvent.command → Host.Core.run Sys2Proof.core ws.length s = .next t →
      t.pending = [] ∧ t.responses.length = ws.length ∧
        (t.fault = none ↔ ∀ rw ∈ t.responses, responseStatus rw = 0)

/-- R31: the fields of the STATUS view; its other bits are zero (its width is the model's, log entry 15). -/
def Obligations.StatusViewShowsItsFields : Prop :=
  ∀ s : State,
    s.status.toNat = s.faultCode.toNat + 2 ^ 4 * s.active.toNat + 2 ^ 5 * s.cnt.toNat

/-! Memory and isolation. -/

/-- R42, R135: no command changes a byte outside Granted. -/
def Obligations.NoCommandWritesOutsideGranted : Prop :=
  ∀ (cw : PortWord) (s t : State) (a : Word), runCommand cw s = .next t → s.isGranted a = false →
    Memory.read t.mem a.toNat = Memory.read s.mem a.toNat

/-- R175: one command writes at most `OUT_PTR .. OUT_PTR + 3`. -/
def Obligations.OneCommandWritesAtMostFourBytes : Prop :=
  ∀ (cw : PortWord) (s t : State) (a : Nat), s.bitRegisterOk → runCommand cw s = .next t →
    (∀ i, i < 4 → (s.outPtr + BitVec.ofNat 32 i).toNat ≠ a) →
      Memory.read t.mem a = Memory.read s.mem a

/-- R44: the prior content of the destination never influences a result or a written byte. -/
def Obligations.PriorContentInfluencesNothing : Prop :=
  ∀ (cw : PortWord) (s t : State) (m : Memory), runCommand cw s = .next t →
    ∃ t', runCommand cw { s with mem := m } = .next t' ∧ t'.withoutMem = t.withoutMem ∧
      ∀ a, (Memory.read t.mem a = Memory.read s.mem a ∧ Memory.read t'.mem a = Memory.read m a) ∨
        Memory.read t'.mem a = Memory.read t.mem a

/-- R34, U12: while ACTIVE is 0 no command reads OUT_PTR; its value changes neither the answer nor any other state. -/
def Obligations.InactivePackerReadsNoCursor : Prop :=
  ∀ (cw : PortWord) (s : State) (p : Word), s.active = false →
    ∃ t, runCommand cw s = .next t ∧
      (runCommand cw { s with outPtr := p } = .next t ∨
        t.outPtr = s.outPtr ∧ runCommand cw { s with outPtr := p } = .next { t with outPtr := p })

/-- R52, R145: two instances whose Granted sets share no address never change the same byte. -/
def Obligations.DisjointGrantsKeepInstancesApart : Prop :=
  ∀ (cw cw' : PortWord) (s t s' t' : State),
    (∀ a, s.isGranted a = true → s'.isGranted a = false) →
    runCommand cw s = .next t → runCommand cw' s' = .next t' →
      ∀ a : Word, Memory.read t.mem a.toNat = Memory.read s.mem a.toNat ∨
        Memory.read t'.mem a.toNat = Memory.read s'.mem a.toNat

/-! Encoding. -/

/-- R60, R61: decoding the encoded word of any instruction gives it back, every operand at every value. -/
def Obligations.DecodeOfEncodeIsIdentity : Prop :=
  ∀ i : Instr, i.wf = true → decode (encode i) = .instr i

/-- R63: a legal word is the encoding of what it decodes to, so no bit of it is ignored. -/
def Obligations.EncodeOfDecodeIsIdentity : Prop :=
  ∀ (w : PortWord) (i : Instr), decode w = .instr i → encode i = w

/-- R62, R63: the decoder answers an instruction exactly when one row of the opcode table selects the word, that row is the
instruction's, no two rows select the same word, and each operand is the field the table names. -/
def Obligations.DecoderFollowsOpcodeTable : Prop :=
  (∀ (w : PortWord) (i : Instr), decode w = .instr i →
    ∃ r ∈ opcodeTable, r.selects w = true ∧ r.mnemonic = i.mnemonic) ∧
  (∀ (w : PortWord) (r : OpcodeRow), r ∈ opcodeTable → r.selects w = true →
    ∃ i, decode w = .instr i ∧ i.mnemonic = r.mnemonic) ∧
  (∀ (w : PortWord) (r r' : OpcodeRow), r ∈ opcodeTable → r' ∈ opcodeTable →
    r.selects w = true → r'.selects w = true → r = r') ∧
  ∀ w : PortWord,
    (∀ dest, decode w = .instr (.init dest) → dest = fieldA w) ∧
    (∀ v n, decode w = .instr (.put v n) → v = fieldA w ∧ n = fieldN w) ∧
    (∀ b0 b1 b2 bits, decode w = .instr (.hash3 b0 b1 b2 bits) →
      (fieldA w).toNat = b0.toNat + b1.toNat * 2 ^ 8 + b2.toNat * 2 ^ 16 ∧ bits = fieldN w) ∧
    ∀ p l, decode w = .instr (.mcost p l) → p = fieldA w ∧ l = fieldLen w

/-- R60: the command word is the sum of its fields at their places, and `rsv` is zero in every legal word. -/
def Obligations.CommandWordIsSumOfFields : Prop :=
  (∀ (w : PortWord) (i : Instr), decode w = .instr i → fieldRsv w = 0) ∧
  ∀ w : PortWord,
    w.toNat = (fieldA w).toNat * 2 ^ 32 + (fieldRsv w).toNat * 2 ^ 20 + (fieldLen w).toNat * 2 ^ 10 +
      (fieldN w).toNat * 2 ^ 4 + (fieldOp w).toNat

/-- R70: the spec's six encoding examples, both ways. -/
def Obligations.SpecExampleWordsEncodeAndDecode : Prop :=
  (encode (.init 0x1000) = 0x0000100000000001 ∧ decode 0x0000100000000001 = .instr (.init 0x1000)) ∧
  (encode (.put 1 1) = 0x0000000100000012 ∧ decode 0x0000000100000012 = .instr (.put 1 1)) ∧
  (encode (.put 0xDEADBEEF 32) = 0xDEADBEEF00000202 ∧
    decode 0xDEADBEEF00000202 = .instr (.put 0xDEADBEEF 32)) ∧
  (encode .fin = 0x0000000000000003 ∧ decode 0x0000000000000003 = .instr .fin) ∧
  (encode (.hash3 0x61 0x62 0x63 17) = 0x0063626100000114 ∧
    decode 0x0063626100000114 = .instr (.hash3 0x61 0x62 0x63 17)) ∧
  (encode (.mcost 10 3) = 0x0000000A00000C05 ∧ decode 0x0000000A00000C05 = .instr (.mcost 10 3))

/-- R69: a line is refused exactly when an operand does not fit its field; the word of any other line decodes to the command
that line writes. -/
def Obligations.AssemblerRefusesOnlyMisfits : Prop :=
  ∀ l : Line,
    (l.fits = false → assemble l = none) ∧
    (l.fits = true → ∃ w i, assemble l = some w ∧ decode w = .instr i ∧ i.toLine = l)
end

