-- ==== Sys2Proof/Laws/Memory.lean ====
section
/-! SUPPORT. The laws of output memory (R41, R44, R48): what is written is read back, every other address keeps its byte,
and the canonical form is kept. -/

namespace Sys2Proof.Laws

open Sys2Proof.Machine

/-! One byte. -/

/-- R41: the location written holds the byte. -/
@[simp] theorem read_write_same (m : Memory) (a : Nat) (v : Byte) :
    Memory.read (Memory.write m a v) a = some v := by
  induction m with
  | nil => simp [Memory.write, Memory.read]
  | cons c m ih =>
    obtain ⟨b, w⟩ := c
    simp only [Memory.write]
    split
    · simp [Memory.read]
    · split
      · simp [Memory.read]
      · simp [Memory.read, *]

/-- R41: no other location changes. -/
theorem read_write_ne (m : Memory) {a b : Nat} (v : Byte) (h : b ≠ a) :
    Memory.read (Memory.write m a v) b = Memory.read m b := by
  induction m with
  | nil => simp [Memory.write, Memory.read, h]
  | cons c m ih =>
    obtain ⟨d, w⟩ := c
    simp only [Memory.write]
    split
    · simp [Memory.read, h]
    · split
      · subst_vars; simp [Memory.read, h]
      · simp [Memory.read, ih]

/-- The cells after a write are old cells or the new one. -/
theorem mem_write {m : Memory} {a : Nat} {v : Byte} {c : Host.Cell}
    (h : c ∈ Memory.write m a v) : c = (a, v) ∨ c ∈ m := by
  induction m with
  | nil => simpa [Memory.write] using h
  | cons d m ih =>
    obtain ⟨b, w⟩ := d
    simp only [Memory.write] at h
    split at h
    · simpa using h
    · split at h
      · rcases List.mem_cons.1 h with h | h <;> simp [h]
      · rcases List.mem_cons.1 h with h | h
        · simp [h]
        · rcases ih h with h | h <;> simp [h]

/-- A write keeps the canonical form. -/
theorem write_wf {m : Memory} {a : Nat} (v : Byte) (ha : a < 2 ^ 32) (h : m.wf) :
    Memory.wf (Memory.write m a v) := by
  obtain ⟨hs, hb⟩ := h
  refine ⟨?_, fun c hc => ?_⟩
  · clear hb
    induction m with
    | nil => simp [Memory.write]
    | cons d m ih =>
      obtain ⟨b, w⟩ := d
      rw [List.pairwise_cons] at hs
      simp only [Memory.write]
      split
      · rename_i hab
        refine List.pairwise_cons.2 ⟨?_, List.pairwise_cons.2 hs⟩
        intro c hc
        rcases List.mem_cons.1 hc with rfl | hc
        · exact hab
        · exact lt_trans hab (hs.1 c hc)
      · split
        · subst_vars
          exact List.pairwise_cons.2 hs
        · refine List.pairwise_cons.2 ⟨fun c hc => ?_, ih hs.2⟩
          rcases mem_write hc with rfl | hc
          · simp only; omega
          · exact hs.1 c hc
  · rcases mem_write hc with rfl | hc
    · exact ha
    · exact hb c hc

/-! A run of bytes. -/

/-- The cursor after one byte, plus `i`, is the cursor plus `i + 1` (R27). -/
theorem cursor_succ (p : Word) (i : Nat) :
    p + 1 + BitVec.ofNat 32 i = p + BitVec.ofNat 32 (i + 1) := by
  change p + 1#32 + BitVec.ofNat 32 i = p + BitVec.ofNat 32 (i + 1)
  apply BitVec.eq_of_toNat_eq
  simp only [BitVec.toNat_add, BitVec.toNat_ofNat]
  omega

/-- Fewer than 2^32 consecutive addresses are distinct (R27). -/
theorem cursor_inj (p : Word) {i j : Nat} (hi : i < 2 ^ 32) (hj : j < 2 ^ 32)
    (h : (p + BitVec.ofNat 32 i).toNat = (p + BitVec.ofNat 32 j).toNat) : i = j := by
  simp only [BitVec.toNat_add, BitVec.toNat_ofNat] at h
  omega

/-- A byte that no write of the run touches is kept (R44). -/
theorem read_writeFrom_outside (m : Memory) (p : Word) (vs : List Byte) (a : Nat)
    (h : ∀ i, i < vs.length → (p + BitVec.ofNat 32 i).toNat ≠ a) :
    Memory.read (Memory.writeFrom m p vs) a = Memory.read m a := by
  induction vs generalizing m p with
  | nil => rfl
  | cons v vs ih =>
    rw [Memory.writeFrom, ih]
    · exact read_write_ne _ _ (by simpa using (h 0 (by simp)).symm)
    · intro i hi
      rw [cursor_succ]
      exact h (i + 1) (by simpa using hi)

/-- Byte `i` of the run is found at the cursor plus `i`, modulo 2^32 (R27, R48). -/
theorem read_writeFrom_at (m : Memory) (p : Word) (vs : List Byte) (hl : vs.length ≤ 2 ^ 32)
    {i : Nat} (hi : i < vs.length) :
    Memory.read (Memory.writeFrom m p vs) (p + BitVec.ofNat 32 i).toNat = some vs[i] := by
  induction vs generalizing m p i with
  | nil => simp at hi
  | cons v vs ih =>
    simp only [List.length_cons] at hl hi
    rw [Memory.writeFrom]
    cases i with
    | zero =>
      rw [read_writeFrom_outside]
      · simp
      · intro j hj heq
        rw [cursor_succ] at heq
        have := cursor_inj p (by omega) (by omega) heq
        omega
    | succ i =>
      rw [← cursor_succ, ih _ _ (by omega) (by omega)]
      simp

/-- A run of writes keeps the canonical form. -/
theorem writeFrom_wf {m : Memory} (p : Word) (vs : List Byte) (h : m.wf) :
    Memory.wf (Memory.writeFrom m p vs) := by
  induction vs generalizing m p with
  | nil => exact h
  | cons v vs ih => exact ih (p + 1) (write_wf v p.isLt h)

end Sys2Proof.Laws
end

