-- ==== Sys2Proof/Laws/State.lean ====
section
/-! SUPPORT. One lemma per field per named update of the state, each true by rfl, so that no later proof unfolds a record
update. -/

namespace Sys2Proof.Laws

open Sys2Proof.Machine

/-! The fields after `State.respond`. -/

@[simp] theorem respond_acc (s : State) (st : Status) (r : Word) : (State.respond s st r).acc = s.acc := rfl
@[simp] theorem respond_cnt (s : State) (st : Status) (r : Word) : (State.respond s st r).cnt = s.cnt := rfl
@[simp] theorem respond_outPtr (s : State) (st : Status) (r : Word) : (State.respond s st r).outPtr = s.outPtr := rfl
@[simp] theorem respond_active (s : State) (st : Status) (r : Word) : (State.respond s st r).active = s.active := rfl
@[simp] theorem respond_fault (s : State) (st : Status) (r : Word) : (State.respond s st r).fault = s.fault := rfl
@[simp] theorem respond_mem (s : State) (st : Status) (r : Word) : (State.respond s st r).mem = s.mem := rfl
@[simp] theorem respond_responses (s : State) (st : Status) (r : Word) : (State.respond s st r).responses = s.responses ++ [responseWord st r] := rfl
@[simp] theorem respond_pending (s : State) (st : Status) (r : Word) : (State.respond s st r).pending = s.pending := rfl
@[simp] theorem respond_granted (s : State) (st : Status) (r : Word) : (State.respond s st r).granted = s.granted := rfl
@[simp] theorem respond_build (s : State) (st : Status) (r : Word) : (State.respond s st r).build = s.build := rfl
@[simp] theorem respond_resets (s : State) (st : Status) (r : Word) : (State.respond s st r).resets = s.resets := rfl

/-! The fields after `State.raise`. -/

@[simp] theorem raise_acc (s : State) (c : Cause) : (State.raise s c).acc = s.acc := rfl
@[simp] theorem raise_cnt (s : State) (c : Cause) : (State.raise s c).cnt = s.cnt := rfl
@[simp] theorem raise_outPtr (s : State) (c : Cause) : (State.raise s c).outPtr = s.outPtr := rfl
@[simp] theorem raise_active (s : State) (c : Cause) : (State.raise s c).active = s.active := rfl
@[simp] theorem raise_fault (s : State) (c : Cause) : (State.raise s c).fault = some c := rfl
@[simp] theorem raise_mem (s : State) (c : Cause) : (State.raise s c).mem = s.mem := rfl
@[simp] theorem raise_responses (s : State) (c : Cause) : (State.raise s c).responses = s.responses ++ [responseWord (.raised c) 0] := rfl
@[simp] theorem raise_pending (s : State) (c : Cause) : (State.raise s c).pending = s.pending := rfl
@[simp] theorem raise_granted (s : State) (c : Cause) : (State.raise s c).granted = s.granted := rfl
@[simp] theorem raise_build (s : State) (c : Cause) : (State.raise s c).build = s.build := rfl
@[simp] theorem raise_resets (s : State) (c : Cause) : (State.raise s c).resets = s.resets := rfl

/-! The fields after `State.refuse`. -/

@[simp] theorem refuse_acc (s : State) : (State.refuse s).acc = s.acc := rfl
@[simp] theorem refuse_cnt (s : State) : (State.refuse s).cnt = s.cnt := rfl
@[simp] theorem refuse_outPtr (s : State) : (State.refuse s).outPtr = s.outPtr := rfl
@[simp] theorem refuse_active (s : State) : (State.refuse s).active = s.active := rfl
@[simp] theorem refuse_fault (s : State) : (State.refuse s).fault = s.fault := rfl
@[simp] theorem refuse_mem (s : State) : (State.refuse s).mem = s.mem := rfl
@[simp] theorem refuse_responses (s : State) : (State.refuse s).responses = s.responses ++ [responseWord .faulted 0] := rfl
@[simp] theorem refuse_pending (s : State) : (State.refuse s).pending = s.pending := rfl
@[simp] theorem refuse_granted (s : State) : (State.refuse s).granted = s.granted := rfl
@[simp] theorem refuse_build (s : State) : (State.refuse s).build = s.build := rfl
@[simp] theorem refuse_resets (s : State) : (State.refuse s).resets = s.resets := rfl

/-! The fields after `State.commit`. -/

@[simp] theorem commit_acc (s : State) (k : Nat) : (State.commit s k).acc = s.acc := rfl
@[simp] theorem commit_cnt (s : State) (k : Nat) : (State.commit s k).cnt = s.cnt := rfl
@[simp] theorem commit_outPtr (s : State) (k : Nat) : (State.commit s k).outPtr = s.outPtr + BitVec.ofNat 32 k := rfl
@[simp] theorem commit_active (s : State) (k : Nat) : (State.commit s k).active = s.active := rfl
@[simp] theorem commit_fault (s : State) (k : Nat) : (State.commit s k).fault = s.fault := rfl
@[simp] theorem commit_mem (s : State) (k : Nat) : (State.commit s k).mem = Memory.writeFrom s.mem s.outPtr (flushBytes s.acc k) := rfl
@[simp] theorem commit_responses (s : State) (k : Nat) : (State.commit s k).responses = s.responses := rfl
@[simp] theorem commit_pending (s : State) (k : Nat) : (State.commit s k).pending = s.pending := rfl
@[simp] theorem commit_granted (s : State) (k : Nat) : (State.commit s k).granted = s.granted := rfl
@[simp] theorem commit_build (s : State) (k : Nat) : (State.commit s k).build = s.build := rfl
@[simp] theorem commit_resets (s : State) (k : Nat) : (State.commit s k).resets = s.resets := rfl

/-! The fields after `State.preflush`. -/

@[simp] theorem preflush_acc (s : State) (k : Nat) : (State.preflush s k).acc = s.acc >>> (8 * k) := rfl
@[simp] theorem preflush_cnt (s : State) (k : Nat) : (State.preflush s k).cnt = BitVec.ofNat 6 (s.cnt.toNat - 8 * k) := rfl
@[simp] theorem preflush_outPtr (s : State) (k : Nat) : (State.preflush s k).outPtr = s.outPtr + BitVec.ofNat 32 k := rfl
@[simp] theorem preflush_active (s : State) (k : Nat) : (State.preflush s k).active = s.active := rfl
@[simp] theorem preflush_fault (s : State) (k : Nat) : (State.preflush s k).fault = s.fault := rfl
@[simp] theorem preflush_mem (s : State) (k : Nat) : (State.preflush s k).mem = Memory.writeFrom s.mem s.outPtr (flushBytes s.acc k) := rfl
@[simp] theorem preflush_responses (s : State) (k : Nat) : (State.preflush s k).responses = s.responses := rfl
@[simp] theorem preflush_pending (s : State) (k : Nat) : (State.preflush s k).pending = s.pending := rfl
@[simp] theorem preflush_granted (s : State) (k : Nat) : (State.preflush s k).granted = s.granted := rfl
@[simp] theorem preflush_build (s : State) (k : Nat) : (State.preflush s k).build = s.build := rfl
@[simp] theorem preflush_resets (s : State) (k : Nat) : (State.preflush s k).resets = s.resets := rfl

/-! The fields after `State.merge`. -/

@[simp] theorem merge_acc (s : State) (v : Word) (n : BitVec 6) : (State.merge s v n).acc = s.acc ||| (v <<< s.cnt.toNat) := rfl
@[simp] theorem merge_cnt (s : State) (v : Word) (n : BitVec 6) : (State.merge s v n).cnt = BitVec.ofNat 6 (s.cnt.toNat + n.toNat) := rfl
@[simp] theorem merge_outPtr (s : State) (v : Word) (n : BitVec 6) : (State.merge s v n).outPtr = s.outPtr := rfl
@[simp] theorem merge_active (s : State) (v : Word) (n : BitVec 6) : (State.merge s v n).active = s.active := rfl
@[simp] theorem merge_fault (s : State) (v : Word) (n : BitVec 6) : (State.merge s v n).fault = s.fault := rfl
@[simp] theorem merge_mem (s : State) (v : Word) (n : BitVec 6) : (State.merge s v n).mem = s.mem := rfl
@[simp] theorem merge_responses (s : State) (v : Word) (n : BitVec 6) : (State.merge s v n).responses = s.responses := rfl
@[simp] theorem merge_pending (s : State) (v : Word) (n : BitVec 6) : (State.merge s v n).pending = s.pending := rfl
@[simp] theorem merge_granted (s : State) (v : Word) (n : BitVec 6) : (State.merge s v n).granted = s.granted := rfl
@[simp] theorem merge_build (s : State) (v : Word) (n : BitVec 6) : (State.merge s v n).build = s.build := rfl
@[simp] theorem merge_resets (s : State) (v : Word) (n : BitVec 6) : (State.merge s v n).resets = s.resets := rfl

/-! The fields after `State.hardReset`. -/

@[simp] theorem hardReset_acc (s : State) (g : List Region) : (State.hardReset s g).acc = 0 := rfl
@[simp] theorem hardReset_cnt (s : State) (g : List Region) : (State.hardReset s g).cnt = 0 := rfl
@[simp] theorem hardReset_outPtr (s : State) (g : List Region) : (State.hardReset s g).outPtr = Config.resetOutPtr (s.resets + 1) := rfl
@[simp] theorem hardReset_active (s : State) (g : List Region) : (State.hardReset s g).active = false := rfl
@[simp] theorem hardReset_fault (s : State) (g : List Region) : (State.hardReset s g).fault = none := rfl
@[simp] theorem hardReset_mem (s : State) (g : List Region) : (State.hardReset s g).mem = s.mem := rfl
@[simp] theorem hardReset_responses (s : State) (g : List Region) : (State.hardReset s g).responses = s.responses := rfl
@[simp] theorem hardReset_pending (s : State) (g : List Region) : (State.hardReset s g).pending = s.pending := rfl
@[simp] theorem hardReset_granted (s : State) (g : List Region) : (State.hardReset s g).granted = g := rfl
@[simp] theorem hardReset_build (s : State) (g : List Region) : (State.hardReset s g).build = s.build := rfl
@[simp] theorem hardReset_resets (s : State) (g : List Region) : (State.hardReset s g).resets = s.resets + 1 := rfl

/-! The fields after `State.hostWrite`. -/

@[simp] theorem hostWrite_acc (s : State) (a : Word) (v : Byte) : (State.hostWrite s a v).acc = s.acc := rfl
@[simp] theorem hostWrite_cnt (s : State) (a : Word) (v : Byte) : (State.hostWrite s a v).cnt = s.cnt := rfl
@[simp] theorem hostWrite_outPtr (s : State) (a : Word) (v : Byte) : (State.hostWrite s a v).outPtr = s.outPtr := rfl
@[simp] theorem hostWrite_active (s : State) (a : Word) (v : Byte) : (State.hostWrite s a v).active = s.active := rfl
@[simp] theorem hostWrite_fault (s : State) (a : Word) (v : Byte) : (State.hostWrite s a v).fault = s.fault := rfl
@[simp] theorem hostWrite_mem (s : State) (a : Word) (v : Byte) : (State.hostWrite s a v).mem = Memory.write s.mem a.toNat v := rfl
@[simp] theorem hostWrite_responses (s : State) (a : Word) (v : Byte) : (State.hostWrite s a v).responses = s.responses := rfl
@[simp] theorem hostWrite_pending (s : State) (a : Word) (v : Byte) : (State.hostWrite s a v).pending = s.pending := rfl
@[simp] theorem hostWrite_granted (s : State) (a : Word) (v : Byte) : (State.hostWrite s a v).granted = s.granted := rfl
@[simp] theorem hostWrite_build (s : State) (a : Word) (v : Byte) : (State.hostWrite s a v).build = s.build := rfl
@[simp] theorem hostWrite_resets (s : State) (a : Word) (v : Byte) : (State.hostWrite s a v).resets = s.resets := rfl

/-! The fields after `State.present`. -/

@[simp] theorem present_acc (s : State) (e : HostEvent) : (State.present s e).acc = s.acc := rfl
@[simp] theorem present_cnt (s : State) (e : HostEvent) : (State.present s e).cnt = s.cnt := rfl
@[simp] theorem present_outPtr (s : State) (e : HostEvent) : (State.present s e).outPtr = s.outPtr := rfl
@[simp] theorem present_active (s : State) (e : HostEvent) : (State.present s e).active = s.active := rfl
@[simp] theorem present_fault (s : State) (e : HostEvent) : (State.present s e).fault = s.fault := rfl
@[simp] theorem present_mem (s : State) (e : HostEvent) : (State.present s e).mem = s.mem := rfl
@[simp] theorem present_responses (s : State) (e : HostEvent) : (State.present s e).responses = s.responses := rfl
@[simp] theorem present_pending (s : State) (e : HostEvent) : (State.present s e).pending = e :: s.pending := rfl
@[simp] theorem present_granted (s : State) (e : HostEvent) : (State.present s e).granted = s.granted := rfl
@[simp] theorem present_build (s : State) (e : HostEvent) : (State.present s e).build = s.build := rfl
@[simp] theorem present_resets (s : State) (e : HostEvent) : (State.present s e).resets = s.resets := rfl

/-! The fields of the state after reset (R34). -/

@[simp] theorem reset_acc : State.reset.acc = 0 := rfl
@[simp] theorem reset_cnt : State.reset.cnt = 0 := rfl
@[simp] theorem reset_active : State.reset.active = false := rfl
@[simp] theorem reset_fault : State.reset.fault = none := rfl
@[simp] theorem reset_mem : State.reset.mem = [] := rfl
@[simp] theorem reset_responses : State.reset.responses = [] := rfl
@[simp] theorem reset_pending : State.reset.pending = [] := rfl
@[simp] theorem reset_granted : State.reset.granted = wholeSpace := rfl
@[simp] theorem reset_build : State.reset.build = defaultBuild := rfl
@[simp] theorem reset_resets : State.reset.resets = 0 := rfl

end Sys2Proof.Laws
end

