-- ==== Sys2Proof/Laws/Ops.lean ====
section
/-! SUPPORT. One lemma per shared operation that says what it can do: flushes, the front end and the checks, responses. -/

namespace Sys2Proof.Laws

open Sys2Proof.Machine

/-! Byte counts (R11, R83). -/

/-- R83: a PUT that does not underflow leaves room for its bits. -/
theorem preflush_leaves_room {c n : Nat} (hn : n ≤ 32) (h : 8 * preflushCount c n ≤ c) :
    c - 8 * preflushCount c n + n ≤ 32 := by
  unfold preflushCount ceil8 at *
  split at h <;> rename_i hc
  · simp only [hc, if_true]; omega
  · simp only [hc, if_false]; omega

/-- R83: the pre-flush of a legal count writes at most 4 bytes. -/
theorem preflushCount_le_four {c n : Nat} (hc : c ≤ 32) : preflushCount c n ≤ 4 := by
  unfold preflushCount ceil8
  split <;> omega

/-- R82: FIN drains at most 4 bytes of a legal count. -/
theorem ceil8_le_four {c : Nat} (hc : c ≤ 32) : ceil8 c ≤ 4 := by
  unfold ceil8; omega

/-! The bytes and addresses of a flush (R48). -/

@[simp] theorem flushBytes_length (acc : Word) (k : Nat) : (flushBytes acc k).length = k := by
  simp [flushBytes]

@[simp] theorem flushBytes_get (acc : Word) (k : Nat) {i : Nat} (hi : i < (flushBytes acc k).length) :
    (flushBytes acc k)[i] = acc.extractLsb' (8 * i) 8 := by
  simp [flushBytes]

theorem mem_flushAddrs {p a : Word} {k : Nat} :
    a ∈ flushAddrs p k ↔ ∃ i, i < k ∧ a = p + BitVec.ofNat 32 i := by
  simp [flushAddrs, eq_comm]

/-- R42, R135: a flush is admitted when each of its addresses is in Granted. -/
theorem mayFlush_iff {s : State} {k : Nat} :
    s.mayFlush k = true ↔ ∀ i, i < k → s.isGranted (s.outPtr + BitVec.ofNat 32 i) = true := by
  simp [State.mayFlush, flushAddrs]

/-- R44: a flush keeps every byte outside its `k` addresses. -/
theorem read_commit_outside (s : State) (k : Nat) {a : Nat}
    (h : ∀ i, i < k → (s.outPtr + BitVec.ofNat 32 i).toNat ≠ a) :
    Memory.read (s.commit k).mem a = Memory.read s.mem a :=
  read_writeFrom_outside _ _ _ _ (by simpa using h)

/-- R48: byte `i` of a flush is `ACC[8i+7 : 8i]`, at the cursor plus `i`. -/
theorem read_commit_at (s : State) {k i : Nat} (hk : k ≤ 2 ^ 32) (hi : i < k) :
    Memory.read (s.commit k).mem (s.outPtr + BitVec.ofNat 32 i).toNat =
      some (s.acc.extractLsb' (8 * i) 8) := by
  have := read_writeFrom_at s.mem s.outPtr (flushBytes s.acc k) (by simpa using hk) (i := i)
    (by simpa using hi)
  simpa using this

/-! Responses (R64). -/

@[simp] theorem responseStatus_word (st : Status) (r : Word) :
    responseStatus (responseWord st r) = st.code := by
  ext i hi
  simp only [responseStatus, responseWord, BitVec.getElem_extractLsb', BitVec.getLsbD_append]
  simp [hi, show ¬ (32 + i < 32) by omega]

@[simp] theorem responseResult_word (st : Status) (r : Word) :
    responseResult (responseWord st r) = r := by
  ext i hi
  simp only [responseResult, responseWord, BitVec.getElem_extractLsb', BitVec.getLsbD_append]
  simp [hi]

/-- Concatenation as arithmetic (R10, R60, R64). -/
theorem append_toNat {m n : Nat} (x : BitVec m) (y : BitVec n) :
    (x ++ y).toNat = x.toNat * 2 ^ n + y.toNat := by
  rw [BitVec.toNat_append, ← Nat.shiftLeft_add_eq_or_of_lt y.isLt, Nat.shiftLeft_eq]

/-- R64: the response word as arithmetic. -/
theorem responseWord_toNat (st : Status) (r : Word) :
    (responseWord st r).toNat = st.code.toNat * 2 ^ 32 + r.toNat := by
  simp only [responseWord, append_toNat]
  simp

theorem responseWord_ok (r : Word) : responseWord .ok r = okWord r := by
  apply BitVec.eq_of_toNat_eq
  have := r.isLt
  rw [responseWord_toNat, okWord]
  simp [Status.code]
  omega

theorem responseWord_raised (c : Cause) : responseWord (.raised c) 0#32 = faultWord c := by
  cases c <;> decide

/-- R133: fault entry writes the latch and the response. -/
theorem raise_eq (s : State) (c : Cause) : s.raise c = s.faultedBy c := by
  simp [State.raise, State.faultedBy, State.respond, responseWord_raised]

/-- R64: an OK response. -/
theorem respond_ok_eq (s : State) (r : Word) : s.respond .ok r = s.answered (okWord r) := by
  simp [State.respond, State.answered, responseWord_ok]

/-- R136: a refusal only answers. -/
theorem refuse_eq (s : State) : s.refuse = s.answered 0x0000000F00000000 := rfl

/-- R100, R101: three bytes as a sum. -/
theorem threeBytes_toNat (low mid high : Byte) :
    (threeBytes low mid high).toNat = low.toNat + mid.toNat * 2 ^ 8 + high.toNat * 2 ^ 16 := by
  simp only [threeBytes, append_toNat]
  omega

/-! The front end (R139). -/

/-- R136: a latched fault refuses the command. -/
theorem frontEnd_latched {s : State} (h : s.fault.isSome = true) (run : State → State) :
    s.frontEnd run = .next s.refuse := by
  simp [State.frontEnd, h]

/-- R139: without a latched fault the command runs. -/
theorem frontEnd_run {s : State} (h : s.fault = none) (run : State → State) :
    s.frontEnd run = .next (run s) := by
  simp [State.frontEnd, h]

/-- What the front end can answer (R139, R173). -/
theorem frontEnd_cases {s t : State} {run : State → State} (h : s.frontEnd run = .next t) :
    (s.fault.isSome = true ∧ t = s.refuse) ∨ (s.fault = none ∧ t = run s) := by
  cases hf : s.fault with
  | none => right; rw [frontEnd_run hf] at h; cases h; exact ⟨rfl, rfl⟩
  | some c => left; rw [frontEnd_latched (by simp [hf])] at h; cases h; exact ⟨rfl, rfl⟩

@[simp] theorem checked_some (s : State) (c : Cause) (done : State) :
    s.checked (some c) done = s.raise c := rfl

@[simp] theorem checked_none (s done : State) : s.checked none done = done := rfl

/-- What the checks can answer (R139, R140). -/
theorem checked_cases (s : State) (check : Option Cause) (done : State) :
    (∃ c, check = some c ∧ s.checked check done = s.raise c) ∨
      (check = none ∧ s.checked check done = done) := by
  cases check <;> simp [State.checked]

/-- R81: when PUT passes all its checks. -/
theorem putCheck_none_iff {s : State} {v : Word} {n : BitVec 6} :
    s.putCheck v n = none ↔
      putInDomain v n = true ∧ s.active = true ∧ 8 * s.putFlush n ≤ s.cnt.toNat ∧
        s.mayFlush (s.putFlush n) = true := by
  unfold State.putCheck
  split <;> simp_all
  split <;> simp_all
  split <;> simp_all

/-- R82: when FIN passes all its checks. -/
theorem finCheck_none_iff {s : State} :
    s.finCheck = none ↔ s.active = true ∧ s.mayFlush s.finFlush = true := by
  unfold State.finCheck
  split <;> simp_all

end Sys2Proof.Laws
end

