-- ==== Sys2Proof/Laws/Exec.lean ====
section
/-! SUPPORT. What a command and a step can do, said once: the case lemmas of `exec`, `runCommand` and `step`. -/

namespace Sys2Proof.Laws

open Sys2Proof.Machine

/-- What an operation does when no fault is latched and none of its checks fires (R139 step 7). -/
inductive Completes : Instr → State → State → Prop where
  | init (s : State) (dest : Word) :
    Completes (.init dest) s
      (State.respond { s with outPtr := dest, acc := 0, cnt := 0, active := true } .ok dest)
  | put (s : State) (value : Word) (n : BitVec 6) (h : s.putCheck value n = none) :
    Completes (.put value n) s (s.putDone value n)
  | fin (s : State) (h : s.finCheck = none) : Completes .fin s s.finDone
  | hash3 (s : State) (b0 b1 b2 : Byte) (bits : BitVec 6) (h : hashInDomain bits = true) :
    Completes (.hash3 b0 b1 b2 bits) s (s.respond .ok (hashWindow s.build b0 b1 b2 bits.toNat))
  | mcost (s : State) (position : Word) (length : BitVec 10)
      (h : costInDomain crush s.build.posMin.val position length = true) :
    Completes (.mcost position length) s
      (s.respond .ok (BitVec.ofNat 32 (matchCost crush position.toNat length.toNat)))

/-! The meanings as front end and body (R139). -/

theorem exec_init (dest : Word) (s : State) :
    exec (.init dest) s = s.frontEnd fun s =>
      State.respond { s with outPtr := dest, acc := 0, cnt := 0, active := true } .ok dest := rfl

theorem exec_put (value : Word) (n : BitVec 6) (s : State) :
    exec (.put value n) s = s.frontEnd fun s => s.checked (s.putCheck value n) (s.putDone value n) := rfl

theorem exec_fin (s : State) :
    exec .fin s = s.frontEnd fun s => s.checked s.finCheck s.finDone := rfl

theorem exec_hash3 (b0 b1 b2 : Byte) (bits : BitVec 6) (s : State) :
    exec (.hash3 b0 b1 b2 bits) s = s.frontEnd fun s =>
      s.checked (if hashInDomain bits then none else some .badOperand)
        (s.respond .ok (hashWindow s.build b0 b1 b2 bits.toNat)) := rfl

theorem exec_mcost (position : Word) (length : BitVec 10) (s : State) :
    exec (.mcost position length) s = s.frontEnd fun s =>
      s.checked
        (if costInDomain crush s.build.posMin.val position length then none else some .badOperand)
        (s.respond .ok (BitVec.ofNat 32 (matchCost crush position.toNat length.toNat))) := rfl

/-- The three ways an operation can end (R136, R133, R139): refused, faulted, completed. -/
theorem exec_cases {i : Instr} {s t : State} (h : exec i s = .next t) :
    (s.fault.isSome = true ∧ t = s.refuse) ∨
      (s.fault = none ∧ ∃ c, t = s.raise c) ∨ (s.fault = none ∧ Completes i s t) := by
  cases i with
  | init dest =>
    rw [exec_init] at h
    rcases frontEnd_cases h with h | ⟨hf, rfl⟩
    · exact .inl h
    · exact .inr (.inr ⟨hf, .init s dest⟩)
  | put value n =>
    rw [exec_put] at h
    rcases frontEnd_cases h with h | ⟨hf, rfl⟩
    · exact .inl h
    · rcases checked_cases s (s.putCheck value n) (s.putDone value n) with ⟨c, -, hc⟩ | ⟨hn, hc⟩
      · exact .inr (.inl ⟨hf, c, hc⟩)
      · rw [hc]; exact .inr (.inr ⟨hf, .put s value n hn⟩)
  | fin =>
    rw [exec_fin] at h
    rcases frontEnd_cases h with h | ⟨hf, rfl⟩
    · exact .inl h
    · rcases checked_cases s s.finCheck s.finDone with ⟨c, -, hc⟩ | ⟨hn, hc⟩
      · exact .inr (.inl ⟨hf, c, hc⟩)
      · rw [hc]; exact .inr (.inr ⟨hf, .fin s hn⟩)
  | hash3 b0 b1 b2 bits =>
    rw [exec_hash3] at h
    rcases frontEnd_cases h with h | ⟨hf, rfl⟩
    · exact .inl h
    · cases hd : hashInDomain bits with
      | false => exact .inr (.inl ⟨hf, .badOperand, by simp [State.checked]⟩)
      | true => exact .inr (.inr ⟨hf, by simpa [State.checked] using .hash3 s b0 b1 b2 bits hd⟩)
  | mcost position length =>
    rw [exec_mcost] at h
    rcases frontEnd_cases h with h | ⟨hf, rfl⟩
    · exact .inl h
    · cases hd : costInDomain crush s.build.posMin.val position length with
      | false => exact .inr (.inl ⟨hf, .badOperand, by simp [State.checked]⟩)
      | true => exact .inr (.inr ⟨hf, by simpa [State.checked] using .mcost s position length hd⟩)

/-- Every operation answers a next state, in every state. -/
theorem exec_next (i : Instr) (s : State) : ∃ t, exec i s = .next t := by
  cases i <;> exact ⟨_, rfl⟩

/-! What a command does to output memory (R44, R48, R135). -/

/-- The memory after an operation: the bytes of `State.bytesOf`, written from the cursor on. -/
theorem exec_mem {i : Instr} {s t : State} (h : exec i s = .next t) :
    t.mem = Memory.writeFrom s.mem s.outPtr (s.bytesOf i) := by
  cases hf : s.fault.isSome with
  | true =>
    rcases exec_cases h with ⟨-, rfl⟩ | ⟨hn, -⟩ | ⟨hn, -⟩
    · simp [State.bytesOf, hf, Memory.writeFrom]
    · simp [hn] at hf
    · simp [hn] at hf
  | false =>
    have hn : s.fault = none := by simpa using hf
    cases i with
    | init dest => rw [exec_init, frontEnd_run hn] at h; cases h; simp [State.bytesOf, Memory.writeFrom]
    | put v n =>
      rw [exec_put, frontEnd_run hn] at h
      cases h
      cases hc : s.putCheck v n with
      | some c => simp [State.bytesOf, hc, Memory.writeFrom]
      | none => simp [State.bytesOf, hn, hc, State.putDone]
    | fin =>
      rw [exec_fin, frontEnd_run hn] at h
      cases h
      cases hc : s.finCheck with
      | some c => simp [State.bytesOf, hc, Memory.writeFrom]
      | none => simp [State.bytesOf, hn, hc, State.finDone]
    | hash3 b0 b1 b2 bits =>
      rw [exec_hash3, frontEnd_run hn] at h
      cases h
      split <;> simp [State.bytesOf, Memory.writeFrom]
    | mcost position length =>
      rw [exec_mcost, frontEnd_run hn] at h
      cases h
      split <;> simp [State.bytesOf, Memory.writeFrom]

/-- A command writes at most 8 bytes, and at most 4 at a legal count (R43, R175). -/
theorem bytesOf_length_le (i : Instr) (s : State) :
    (s.bytesOf i).length ≤ 8 ∧ (s.cnt.toNat ≤ 32 → (s.bytesOf i).length ≤ 4) := by
  have h64 : s.cnt.toNat < 64 := s.cnt.isLt
  unfold State.bytesOf
  cases i <;> simp only <;> repeat' split
  all_goals simp
  · unfold State.putFlush
    refine ⟨?_, preflushCount_le_four⟩
    unfold preflushCount ceil8
    split <;> omega
  · unfold State.finFlush
    refine ⟨?_, ceil8_le_four⟩
    unfold ceil8
    omega

/-- Every address a command writes is in Granted (R42, R135). -/
theorem bytesOf_granted (i : Instr) (s : State) {j : Nat} (hj : j < (s.bytesOf i).length) :
    s.isGranted (s.outPtr + BitVec.ofNat 32 j) = true := by
  unfold State.bytesOf at hj
  cases i <;> simp only at hj <;> repeat' split at hj
  all_goals simp at hj
  · rename_i h
    exact mayFlush_iff.1 (putCheck_none_iff.1 h).2.2.2 j hj
  · rename_i h
    exact mayFlush_iff.1 (finCheck_none_iff.1 h).2 j hj

/-- What a command word can do: what its operation does, or ILLEGAL_CMD (R63, R67). -/
theorem runCommand_cases {cw : PortWord} {s t : State} (h : runCommand cw s = .next t) :
    (∃ i, decode cw = .instr i ∧ exec i s = .next t) ∨
      (∃ why, decode cw = .illegal why ∧
        ((s.fault.isSome = true ∧ t = s.refuse) ∨ (s.fault = none ∧ t = s.raise .illegalCmd))) := by
  unfold runCommand at h
  cases hd : decode cw with
  | instr i => exact .inl ⟨i, rfl, by simpa [hd] using h⟩
  | illegal why => exact .inr ⟨why, rfl, frontEnd_cases (by simpa [hd, execIllegal] using h)⟩

/-- The memory after a command word: the bytes of `State.bytesOfWord`, written from the cursor on. -/
theorem runCommand_mem {cw : PortWord} {s t : State} (h : runCommand cw s = .next t) :
    t.mem = Memory.writeFrom s.mem s.outPtr (s.bytesOfWord cw) := by
  rcases runCommand_cases h with ⟨i, hd, he⟩ | ⟨why, hd, ⟨-, rfl⟩ | ⟨-, rfl⟩⟩
  · simpa [State.bytesOfWord, hd] using exec_mem he
  · simp [State.bytesOfWord, hd, Memory.writeFrom]
  · simp [State.bytesOfWord, hd, Memory.writeFrom]

theorem bytesOfWord_length_le (cw : PortWord) (s : State) :
    (s.bytesOfWord cw).length ≤ 8 ∧ (s.cnt.toNat ≤ 32 → (s.bytesOfWord cw).length ≤ 4) := by
  unfold State.bytesOfWord
  split
  · exact bytesOf_length_le _ s
  · simp

theorem bytesOfWord_granted (cw : PortWord) (s : State) {j : Nat} (hj : j < (s.bytesOfWord cw).length) :
    s.isGranted (s.outPtr + BitVec.ofNat 32 j) = true := by
  unfold State.bytesOfWord at hj
  split at hj
  · exact bytesOf_granted _ s hj
  · simp at hj

/-- The step that takes a presented event runs it on the state without that event (R29). -/
theorem step_present (s : State) (e : HostEvent) : step (s.present e) = runEvent e s := rfl

/-- What one step can do: hold the state, or run the host's next event (R144, R175). -/
theorem step_cases {s t : State} (h : step s = .next t) :
    (s.pending = [] ∧ t = s) ∨
      ∃ e rest, s.pending = e :: rest ∧ runEvent e { s with pending := rest } = .next t := by
  unfold step at h
  cases hp : s.pending with
  | nil => left; rw [hp] at h; cases h; exact ⟨rfl, rfl⟩
  | cons e rest => right; rw [hp] at h; exact ⟨e, rest, rfl, h⟩

end Sys2Proof.Laws
end

