-- ==== Sys2Proof/Laws/MatchCost.lean ====
section
/-! SUPPORT. The match cost in numbers: the constants of the CRUSH format (R6, R7) and what the magnitude loop answers
(R113). -/

namespace Sys2Proof.Laws

open Sys2Proof.Machine

@[simp] theorem minMatch_crush : crush.minMatch = 3 := rfl
@[simp] theorem maxMatch_crush : crush.maxMatch = 566 := rfl
@[simp] theorem slotBits_crush : crush.slotBits = 4 := rfl
@[simp] theorem selectorBits_crush : crush.selectorBits = 1 := rfl
@[simp] theorem windowBits_crush : crush.windowBits = 21 := rfl
@[simp] theorem magnitudeBase_crush : magnitudeBase crush = 5 := rfl
@[simp] theorem nearBits_crush : nearBits crush = 6 := rfl
@[simp] theorem windowSize_crush : windowSize crush = 2097152 := rfl
@[simp] theorem positionMax_crush : positionMax crush = 2097151 := rfl

/-- R112: the length step as its table. -/
theorem classCost_crush (l : Nat) :
    classCost crush.classes l =
      if l < 4 then 3 else if l < 8 then 4 else if l < 12 then 5 else if l < 20 then 7
      else if l < 52 then 10 else 14 := rfl

/-- R110: the four steps of the cost in numbers. -/
theorem matchCost_crush (p l : Nat) :
    matchCost crush p l =
      1 + classCost crush.classes (l - 3) +
        (4 + if magnitude crush p > 5 then magnitude crush p else 6) := rfl

/-- R111: the domain of MCOST in numbers. -/
theorem costInDomain_crush (posMin : Nat) (position : Word) (length : BitVec 10) :
    costInDomain crush posMin position length = true ↔
      3 ≤ length.toNat ∧ length.toNat ≤ 566 ∧ posMin ≤ position.toNat ∧ position.toNat ≤ 2097151 := by
  simp only [costInDomain, Bool.and_eq_true, decide_eq_true_eq, and_assoc]
  exact Iff.rfl

/-- R113: while its fuel lasts, the loop ends at the least level from `m` on that exceeds the position. -/
theorem magnitudeFrom_spec (p : Nat) : ∀ fuel m, p < 2 ^ (m + fuel + 1) →
    m ≤ magnitudeFrom fuel m p ∧ p < 2 ^ (magnitudeFrom fuel m p + 1) ∧
      (magnitudeFrom fuel m p = m ∨ 2 ^ magnitudeFrom fuel m p ≤ p) := by
  intro fuel
  induction fuel with
  | zero => intro m h; simpa [magnitudeFrom] using h
  | succ f ih =>
    intro m h
    rw [magnitudeFrom]
    split
    · rename_i hle
      obtain ⟨a, b, c⟩ := ih (m + 1) (by rwa [show m + 1 + f + 1 = m + (f + 1) + 1 by omega])
      refine ⟨by omega, b, c.elim (fun c => .inr ?_) .inr⟩
      rw [c]
      exact hle
    · exact ⟨le_refl _, by omega, .inl rfl⟩

end Sys2Proof.Laws
end

