-- ==== Sys2Proof/Laws/PerInstr.lean ====
section
/-! SUPPORT. Facts said once per instruction, as syntax: TableWord, the encoded word selects the instruction's own row of
the opcode table (R62), and Fits, the line that writes it fits its fields (R69). -/

namespace Sys2Proof.Laws

/-- A row of the table that selects the word, with its mnemonic (R62). -/
abbrev rowSelects (mnemonic : String) (w : PortWord) : Prop :=
  ∃ r ∈ opcodeTable, r.mnemonic = mnemonic ∧ r.selects w = true

theorem and_mask_eq {w m v : PortWord} (h : ∀ i : Fin 64, (w.getLsbD i && m.getLsbD i) = v.getLsbD i) :
    w &&& m = v := by
  apply BitVec.eq_of_getLsbD_eq
  intro i hi
  simpa using h ⟨i, hi⟩

theorem packCommand_bit (op : BitVec 4) (n : BitVec 6) (len : BitVec 10) (a : Word) (i : Nat) :
    (packCommand op n len a).getLsbD i =
      if i < 4 then op.getLsbD i else if i < 10 then n.getLsbD (i - 4)
      else if i < 20 then len.getLsbD (i - 10) else if i < 32 then false else a.getLsbD (i - 32) := by
  simp only [packCommand, BitVec.getLsbD_append]
  repeat' split
  all_goals first
    | rfl
    | omega
    | simp_all

theorem packWindow_bit (b0 b1 b2 : Byte) (i : Nat) :
    (packWindow b0 b1 b2).getLsbD i =
      if i < 8 then b0.getLsbD i else if i < 16 then b1.getLsbD (i - 8)
      else if i < 24 then b2.getLsbD (i - 16) else false := by
  simp only [packWindow, BitVec.getLsbD_append]
  repeat' split
  all_goals first
    | rfl
    | omega
    | simp_all

theorem TableWord.select {op : BitVec 4} {n : BitVec 6} {len : BitVec 10} {a : Word} {r : OpcodeRow}
    (h : ∀ i : Fin 64,
      ((if i.val < 4 then op.getLsbD i else if i.val < 10 then n.getLsbD (i - 4)
        else if i.val < 20 then len.getLsbD (i - 10) else if i.val < 32 then false
        else a.getLsbD (i - 32)) && r.mask.getLsbD i) = r.value.getLsbD i) :
    r.selects (packCommand op n len a) = true := by
  unfold OpcodeRow.selects
  rw [and_mask_eq (v := r.value)]
  · simp
  · intro i
    rw [packCommand_bit]
    exact h i

/-- The encoded word selects the instruction's own row (R62). -/
def TableWord.Statement (i : Instr) : Prop := rowSelects i.mnemonic (encode i)

theorem TableWord.init (dest : Word) : TableWord.Statement (.init dest) := by
  refine ⟨⟨"INIT", 0x00000000FFFFFFFF, 0x0000000000000001⟩, by simp [opcodeTable], rfl, TableWord.select ?_⟩
  intro i; fin_cases i <;> simp

theorem TableWord.put (value : Word) (numBits : BitVec 6) : TableWord.Statement (.put value numBits) := by
  refine ⟨⟨"PUT", 0x00000000FFFFFC0F, 0x0000000000000002⟩, by simp [opcodeTable], rfl, TableWord.select ?_⟩
  intro i; fin_cases i <;> simp

theorem TableWord.fin : TableWord.Statement .fin :=
  ⟨⟨"FIN", 0xFFFFFFFFFFFFFFFF, 0x0000000000000003⟩, by simp [opcodeTable], rfl, by decide⟩

theorem TableWord.hash3 (b0 b1 b2 : Byte) (bits : BitVec 6) :
    TableWord.Statement (.hash3 b0 b1 b2 bits) := by
  refine ⟨⟨"HASH3", 0xFF000000FFFFFC0F, 0x0000000000000004⟩, by simp [opcodeTable], rfl, TableWord.select ?_⟩
  intro i; fin_cases i <;> simp [packWindow_bit, -BitVec.getLsbD_eq_getElem]

theorem TableWord.mcost (position : Word) (length : BitVec 10) :
    TableWord.Statement (.mcost position length) := by
  refine ⟨⟨"MCOST", 0x00000000FFF003FF, 0x0000000000000005⟩, by simp [opcodeTable], rfl, TableWord.select ?_⟩
  intro i; fin_cases i <;> simp

/-- The line that writes the instruction fits its fields (R69). -/
def Fits.Statement (i : Instr) : Prop := i.wf = true

theorem Fits.init (dest : Word) : Fits.Statement (.init dest) := by
  have := dest.isLt
  simpa [Fits.Statement, Instr.wf, Instr.toLine, Line.fits] using this

theorem Fits.put (value : Word) (numBits : BitVec 6) : Fits.Statement (.put value numBits) := by
  have := value.isLt
  have := numBits.isLt
  simp [Fits.Statement, Instr.wf, Instr.toLine, Line.fits]; omega

theorem Fits.fin : Fits.Statement .fin := rfl

theorem Fits.hash3 (b0 b1 b2 : Byte) (bits : BitVec 6) : Fits.Statement (.hash3 b0 b1 b2 bits) := by
  have := b0.isLt
  have := b1.isLt
  have := b2.isLt
  have := bits.isLt
  simp [Fits.Statement, Instr.wf, Instr.toLine, Line.fits]; omega

theorem Fits.mcost (position : Word) (length : BitVec 10) : Fits.Statement (.mcost position length) := by
  have := position.isLt
  have := length.isLt
  simp [Fits.Statement, Instr.wf, Instr.toLine, Line.fits]; omega

/-- Every instruction is well formed: the widths of `Instr` are those of the fields (R61). -/
theorem instr_wf (i : Instr) : i.wf = true := by
  cases i with
  | init dest => exact Fits.init dest
  | put value numBits => exact Fits.put value numBits
  | fin => exact Fits.fin
  | hash3 b0 b1 b2 bits => exact Fits.hash3 b0 b1 b2 bits
  | mcost position length => exact Fits.mcost position length

end Sys2Proof.Laws
end

