-- ==== Sys2Proof/Laws/Stream.lean ====
section
/-! SUPPORT. The bits of a PUT operand as a piece of the stream (R46, R87), and how a wide operand splits (R163). -/

namespace Sys2Proof.Laws

open Sys2Proof.Machine

@[simp] theorem valueBits_length (v : Word) (n : Nat) : (valueBits v n).length = n := by
  simp [valueBits]

/-- Stream bit `j` of a value is its bit `j`. -/
theorem valueBits_getElem? (v : Word) {n j : Nat} (h : j < n) : (valueBits v n)[j]? = some (v.getLsbD j) := by
  simp [valueBits, h]

/-- The low 16 bits of a value, then the rest, are the bits of the value. -/
theorem valueBits_split (v : Word) {n : Nat} (h : 16 ≤ n) :
    valueBits v n = valueBits (BitVec.ofNat 32 (v.toNat % 2 ^ 16)) 16 ++ valueBits (v >>> 16) (n - 16) := by
  apply List.ext_getElem?
  intro j
  by_cases low : j < 16
  · rw [List.getElem?_append_left (by simpa using low), valueBits_getElem? v (by omega),
      valueBits_getElem? _ low, ← BitVec.testBit_toNat, ← BitVec.testBit_toNat, BitVec.toNat_ofNat,
      Nat.mod_mod_of_dvd' (by decide), Nat.testBit_mod_two_pow]
    simp [low]
  · rw [List.getElem?_append_right (by simpa using low), valueBits_length]
    by_cases high : j < n
    · rw [valueBits_getElem? v high, valueBits_getElem? _ (by omega), BitVec.getLsbD_ushiftRight,
        Nat.add_sub_cancel' (by omega)]
    · rw [List.getElem?_eq_none (by simpa using high), List.getElem?_eq_none (by simp; omega)]

end Sys2Proof.Laws
end

