-- ==== Sys2Proof/Tests/Slice0.lean ====
section
/-! SUPPORT. The model's own tests, each about one step or one word, with the expected results of spec/95_test_vectors.md,
30_encoding R70 and the tables of the rules; the ill-formed lines the assembler refuses; and, for every statement with
hypotheses, a state and operands that meet them. -/

namespace Sys2Proof.Tests

open Sys2Proof.Machine

/-! Helpers. -/

/-- The reset state with OUT_PTR at a number, so that states can be compared. -/
def base : State := { State.reset with outPtr := 0 }

/-- A state in mid-stream. -/
def packing (acc : Word) (cnt : BitVec 6) (outPtr : Word) : State :=
  { base with acc := acc, cnt := cnt, outPtr := outPtr, active := true }

/-- A state with this Granted set. -/
def grantedTo (s : State) (regions : List Region) : State := { s with granted := regions }

/-- The next state of an outcome. -/
def nextOf (o : Host.Outcome State Fault Refusal) : State :=
  match o with
  | .next s => s
  | .fault _ => base
  | .refused _ => base

/-- What a test of the packer looks at: the last response, ACC, CNT, OUT_PTR, ACTIVE, FAULT and memory. -/
structure Look where
  response : Option PortWord
  acc : Word
  cnt : Nat
  outPtr : Word
  active : Bool
  fault : Nat
  mem : List (Nat × Byte)
  deriving DecidableEq, Repr

/-- That view of a state. -/
def look (s : State) : Look :=
  ⟨s.responses.getLast?, s.acc, s.cnt.toNat, s.outPtr, s.active, s.faultCode.toNat, s.mem⟩

/-- The last response after one command word. -/
def answer (s : State) (cw : PortWord) : Option PortWord :=
  (nextOf (step (s.present (.command cw)))).responses.getLast?

/-! Well-formedness (R69): a line with an operand too wide for its field is refused. -/

theorem test_illformed_init : (Line.init (2 ^ 32)).fits = false := by decide
theorem test_illformed_put_value : (Line.put (2 ^ 32) 1).fits = false := by decide
theorem test_illformed_put_bits : (Line.put 0 64).fits = false := by decide
theorem test_illformed_hash3_b0 : (Line.hash3 256 0 0 17).fits = false := by decide
theorem test_illformed_hash3_b1 : (Line.hash3 0 256 0 17).fits = false := by decide
theorem test_illformed_hash3_b2 : (Line.hash3 0 0 256 17).fits = false := by decide
theorem test_illformed_hash3_bits : (Line.hash3 0 0 0 64).fits = false := by decide
theorem test_illformed_mcost_position : (Line.mcost (2 ^ 32) 3).fits = false := by decide
theorem test_illformed_mcost_length : (Line.mcost 10 1024).fits = false := by decide
/-- R69: out of domain is not ill formed. -/
theorem test_wellformed_out_of_domain : assemble (.put 0 40) = some 0x0000000000000282 := by decide

/-! Decoding (R70; 95 section 2.4.a), each word written out field by field: a, rsv, len, n, op. -/

theorem test_decode_init :
    decode 0b00000000000000000001000000000000_000000000000_0000000000_000000_0001 =
      .instr (.init 0x1000) := by decide
theorem test_decode_put :
    decode 0b11011110101011011011111011101111_000000000000_0000000000_100000_0010 =
      .instr (.put 0xDEADBEEF 32) := by decide
theorem test_decode_fin :
    decode 0b00000000000000000000000000000000_000000000000_0000000000_000000_0011 =
      .instr .fin := by decide
theorem test_decode_hash3 :
    decode 0b00000000_01100011_01100010_01100001_000000000000_0000000000_010001_0100 =
      .instr (.hash3 0x61 0x62 0x63 17) := by decide
theorem test_decode_mcost :
    decode 0b00000000000111111111111111111111_000000000000_1000110110_000000_0101 =
      .instr (.mcost 2097151 566) := by decide
/-- 95 section 2.4.a: `PUT 0, 63` is a legal word. -/
theorem test_decode_put_out_of_domain : decode 0x00000000000003F2 = .instr (.put 0 63) := by decide
/-- 95 section 2.4.b: the illegal words. -/
theorem test_decode_illegal_op :
    ([0x0000000000000000, 0x0000000000000006, 0x000000000000000F, 0xFFFFFFFFFFFFFFFF] : List PortWord).map
      decode = List.replicate 4 (.illegal .reservedOp) := by decide
theorem test_decode_illegal_field :
    ([0x0000000000000011, 0x0000100000000401, 0x0000000000000402, 0x0000000100100012,
      0x0000000100000003, 0x0000000000000013, 0x0163626100000114, 0x0063626100000514,
      0x0000000A00000C15, 0x0000000A80000C05] : List PortWord).map decode =
      List.replicate 10 (.illegal .nonzeroField) := by decide
/-- 95 section 2.4.c: match & ~mask = 0, and no two rows agree in `op`. -/
theorem test_table_masks : ∀ r ∈ opcodeTable, r.value &&& ~~~r.mask = 0 ∧ r.mask &&& 0xF = 0xF := by decide
theorem test_table_no_overlap :
    opcodeTable.Pairwise fun r r' => r.value &&& 0xF ≠ r'.value &&& 0xF := by decide
theorem test_table_word : decodeTableWord 64 0x0000000A00000C05 = some (.mcost 10 3) := by decide
theorem test_table_word_short : decodeTableWord 32 0x00000012 = some (.put 0 1) := by decide

/-! Assembler text (R69, R70). -/

theorem test_text_init : assembleText "INIT 0x1000".toList = .word 0x0000100000000001 := by decide
theorem test_text_put : assembleText " PUT 0b101, 3 ; a comment".toList = .word 0x0000000500000032 := by decide
theorem test_text_fin : assembleText "FIN".toList = .word 0x0000000000000003 := by decide
theorem test_text_hash3 : assembleText "HASH3 0x61, 0x62, 0x63, 17".toList = .word 0x0063626100000114 := by
  decide
theorem test_text_mcost : assembleText "MCOST 10, 3".toList = .word 0x0000000A00000C05 := by decide
theorem test_text_comment : assembleText "; nothing".toList = .blank := by decide
theorem test_text_refused : assembleText "PUT 0, 64".toList = .refused := by decide

/-! The Bit Packer (R80, R81, R82; 95 sections 2.1 and 3). -/

/-- R80's example. -/
theorem test_init :
    look (nextOf (exec (.init 0x1000) base)) =
      ⟨some 0x0000000000001000, 0, 0, 0x1000, true, 0, []⟩ := by decide
/-- 95 section 2.1.h: INIT while bound discards the held bits. -/
theorem test_init_rebinds :
    look (nextOf (exec (.init 0x90) (packing 3 2 0x80))) =
      ⟨some 0x0000000000000090, 0, 0, 0x90, true, 0, []⟩ := by decide
/-- R81's example. -/
theorem test_put_flushes_one :
    look (nextOf (exec (.put 0x12345 20) (packing 0x000ABCDE 20 0x2000))) =
      ⟨some 0x0000000000002001, 0x12345ABC, 32, 0x2001, true, 0, [(0x2000, 0xDE)]⟩ := by decide
/-- 95 section 2.1.c: the greatest pre-flush, four bytes. -/
theorem test_put_flushes_four :
    look (nextOf (exec (.put 0x1000001 25) (packing 0x89ABCDEF 32 0))) =
      ⟨some 0x0000000000000004, 0x01000001, 25, 4, true, 0,
        [(0, 0xEF), (1, 0xCD), (2, 0xAB), (3, 0x89)]⟩ := by decide
/-- R82's example. -/
theorem test_fin :
    look (nextOf (exec .fin (packing 0x0000002B 6 0x1000))) =
      ⟨some 0x0000000000001001, 0, 0, 0x1001, false, 0, [(0x1000, 0x2B)]⟩ := by decide
/-- 95 section 2.1.i: the cursor wraps at the top of the address space. -/
theorem test_fin_wraps :
    look (nextOf (exec .fin (packing 0x0000AABB 16 0xFFFFFFFF))) =
      ⟨some 0x0000000000000001, 0, 0, 1, false, 0, [(0, 0xAA), (0xFFFFFFFF, 0xBB)]⟩ := by decide
/-- 95 section 2.1.j: rows 7, 8, 25 and 32 of the table of `k`. -/
theorem test_preflush_counts :
    ([(7, 25), (8, 24), (8, 25), (25, 8), (25, 31), (32, 1), (32, 16), (32, 25)] : List (Nat × Nat)).map
      (fun p => preflushCount p.1 p.2) = [0, 0, 1, 1, 3, 1, 2, 4] := by decide

/-! The Candidate Hash (R100; 95 section 2.2). -/

theorem test_hash3 : answer base 0x0063626100000114 = some 0x0000000000007E1B := by decide
theorem test_hash3_full : answer base 0x00FFFFFF00000204 = some 0x0000000012C8864F := by decide
/-- 95 section 2.2.b: the reversed window. -/
theorem test_hash_other_order :
    hashWindow { defaultBuild with windowOrder := .byte0Highest } 0x61 0x62 0x63 17 = 0x11035 := by decide

/-! The Match Cost Model (R110; 95 section 2.3). -/

/-- R6: W_SIZE, M_BASE, NEAR_BITS as the table prints them. -/
theorem test_derived_constants :
    windowSize crush = 2097152 ∧ magnitudeBase crush = 5 ∧ nearBits crush = 6 := by decide

theorem test_mcost : answer base 0x0000000A00000C05 = some 0x000000000000000E := by decide
theorem test_mcost_greatest : answer base 0x001FFFFF0008D805 = some 0x0000000000000027 := by decide
/-- 95 section 2.3.c: position 0 with POS_MIN = 0. -/
theorem test_mcost_pos_min_zero :
    answer { base with build := { defaultBuild with posMin := 0 } } 0x0000000000000C05 =
      some 0x000000000000000E := by decide

/-! Faults (95 sections 2.3.c and 2.5). -/

theorem test_fault_illegal : answer base 0x0000000100100012 = some 0x0000000100000000 := by decide
theorem test_fault_operand_first : answer base 0x0000000300000012 = some 0x0000000200000000 := by decide
theorem test_fault_not_active : answer base 0x0000000100000012 = some 0x0000000300000000 := by decide
theorem test_fault_underflow :
    look (nextOf (exec (.put 0 32) (packing 1 1 0))) =
      ⟨some 0x0000000400000000, 1, 1, 0, true, 4, []⟩ := by decide
theorem test_fault_bus :
    look (nextOf (exec (.put 0x1FF 9) (grantedTo (packing 0xABFFFFFF 32 0x10) [⟨0x10, 0x10⟩]))) =
      ⟨some 0x0000000500000000, 0xABFFFFFF, 32, 0x10, true, 5, []⟩ := by decide
theorem test_fault_bus_fin :
    look (nextOf (exec .fin (grantedTo (packing 0x1FF 9 0x10) [⟨0x10, 0x10⟩]))) =
      ⟨some 0x0000000500000000, 0x1FF, 9, 0x10, true, 5, []⟩ := by decide
/-- 95 section 2.5: with nothing granted, a FIN that writes no byte does not fault. -/
theorem test_fin_writes_nothing :
    look (nextOf (exec .fin (grantedTo (packing 0 0 0x999) []))) =
      ⟨some 0x0000000000000999, 0, 0, 0x999, false, 0, []⟩ := by decide
theorem test_fault_latched :
    answer { base with fault := some .putUnderflow } 0x0000000000000114 = some 0x0000000F00000000 := by
  decide
theorem test_mcost_bad_position : answer base 0x0020000000000C05 = some 0x0000000200000000 := by decide
theorem test_hash3_bad_bits : answer base 0x0063626100000214 = some 0x0000000200000000 := by decide

/-! The host's other events (R160, R168) and the idle port (R144). -/

theorem test_reset_event :
    (let t := nextOf (step ({ packing 1 1 5 with fault := some .busError, mem := [(3, 7)] }.present
      (.reset [⟨0, 9⟩])))
     t.acc = 0 ∧ t.cnt = 0 ∧ t.active = false ∧ t.fault = none ∧ Memory.read t.mem 3 = some 7 ∧
      t.isGranted 9 = true ∧ t.isGranted 10 = false) := by decide
theorem test_host_write :
    (nextOf (step ((packing 1 1 5).present (.hostWrite 5 0xAA)))).mem = [(5, 0xAA)] := by decide
theorem test_status : (packing 1 32 0).status = 0x410 := by decide
theorem test_unwritten_byte_reads_as_none : Memory.read base.mem 0 = none := by decide

/-! Witnesses: for every statement with hypotheses, data that meet all of them, one for each clause. -/

theorem witness_HardwareResetClearsBlock :
    (base.present (.reset [])).pending = .reset [] :: [] ∧
      (base.present (.resetDuring 0x3 [])).pending = .resetDuring 0x3 [] :: [] := by decide
theorem witness_DiscardedCommandWritesNoForeignByte :
    ∃ s t u, s.pending = .resetDuring 0x3 [] :: [] ∧ step s = .next t ∧ runCommand 0x3 s = .next u ∧
      u.mem = [(0, 0xAB)] :=
  ⟨(packing 0xAB 8 0).present (.resetDuring 0x3 []), _, _, rfl, rfl, rfl, by decide⟩
theorem witness_StepRunsDecodedInstruction :
    (base.present (.command 0x3)).pending = .command 0x3 :: [] ∧ decode 0x3 = .instr .fin ∧
      decodeTableWord 64 3 = some .fin := by decide
theorem witness_IdleBlockHoldsState : base.pending = [] := by decide
theorem witness_HostWriteDisturbsNothingElse :
    (base.present (.hostWrite 1 2)).pending = .hostWrite 1 2 :: [] := by decide
theorem witness_EveryStepKeepsBitRegisterSound :
    ∃ t, (packing 1 1 0).bitRegisterOk ∧ step ((packing 1 1 0).present (.command 0x3)) = .next t :=
  ⟨_, by decide, rfl⟩
theorem witness_EveryStepKeepsMemoryCanonical :
    ∃ t, ({ packing 1 1 0 with mem := [(1, 2), (4, 0)] } : State).mem.wf ∧
      step ({ packing 1 1 0 with mem := [(1, 2), (4, 0)] }.present (.command 0x3)) = .next t :=
  ⟨_, by decide, rfl⟩
/-- One step for each clause: a reset, a reset during a command, a command. -/
theorem witness_NoStepChangesParameters :
    ∃ t u w, step (base.present (.reset [⟨1, 2⟩])) = .next t ∧ t.granted = [⟨1, 2⟩] ∧
      step (base.present (.resetDuring 0x3 [⟨1, 2⟩])) = .next u ∧ u.granted = [⟨1, 2⟩] ∧
      step (base.present (.command 0x3)) = .next w ∧ w.granted = base.granted :=
  ⟨_, _, _, rfl, by decide, rfl, by decide, rfl, by decide⟩
theorem witness_InitBindsCursorAndEmptiesRegister : base.fault = none := by decide

/-- PUT, first clause: `n` just above 32. -/
theorem witness_PutChecks_width :
    base.fault = none ∧ base.bitRegisterOk ∧ 32 < (33 : BitVec 6).toNat := by decide
/-- PUT, second clause: `value = 2^n`. -/
theorem witness_PutChecks_value :
    (1 : BitVec 6).toNat ≤ 32 ∧ 2 ^ (1 : BitVec 6).toNat ≤ (2 : Word).toNat := by decide
/-- PUT, third clause: in domain, not bound. -/
theorem witness_PutChecks_inactive :
    (32 : BitVec 6).toNat ≤ 32 ∧ (0xFFFFFFFF : Word).toNat < 2 ^ (32 : BitVec 6).toNat ∧
      base.active = false := by decide
/-- PUT, fourth clause: the least underflow, CNT = 7 and n = 26, where k = 1. -/
theorem witness_PutChecks_underflow :
    (packing 0x7F 7 0).active = true ∧ (packing 0x7F 7 0).bitRegisterOk ∧
      1 = (if (packing 0x7F 7 0).cnt.toNat > 32 - (26 : BitVec 6).toNat then
        ((packing 0x7F 7 0).cnt.toNat - (32 - (26 : BitVec 6).toNat) + 7) / 8 else 0) ∧
      (packing 0x7F 7 0).cnt.toNat < 8 * 1 := by decide
/-- PUT, fifth clause: the second of two bytes is not granted. -/
theorem witness_PutChecks_notGranted :
    2 = preflushCount 32 9 ∧ 8 * 2 ≤ (packing 0xABFFFFFF 32 0x10).cnt.toNat ∧
      (grantedTo (packing 0xABFFFFFF 32 0x10) [⟨0x10, 0x10⟩]).isGranted (0x10 + BitVec.ofNat 32 1) =
        false := by decide
/-- PUT, last clause: CNT = 32 and n = 25, where k = 4 and CNT - 8k = 0. -/
theorem witness_PutChecks_completes :
    4 = preflushCount 32 25 ∧ (packing 0x89ABCDEF 32 0).active = true ∧
      (packing 0x89ABCDEF 32 0).bitRegisterOk ∧ (packing 0x89ABCDEF 32 0).fault = none ∧
      8 * 4 ≤ (packing 0x89ABCDEF 32 0).cnt.toNat ∧ (0x1000001 : Word).toNat < 2 ^ (25 : BitVec 6).toNat ∧
      ∀ i, i < 4 → (packing 0x89ABCDEF 32 0).isGranted (0 + BitVec.ofNat 32 i) = true := by decide
theorem witness_FinChecks_inactive : base.fault = none ∧ base.active = false := by decide
theorem witness_FinChecks_notGranted :
    (grantedTo (packing 0x1FF 9 0x10) [⟨0x10, 0x10⟩]).active = true ∧ 2 = ceil8 9 ∧
      (grantedTo (packing 0x1FF 9 0x10) [⟨0x10, 0x10⟩]).isGranted (0x10 + BitVec.ofNat 32 1) = false := by
  decide
theorem witness_FinChecks_completes :
    (packing 0x1FF 9 0x10).active = true ∧ 2 = ceil8 9 ∧
      ∀ i, i < 2 → (packing 0x1FF 9 0x10).isGranted (0x10 + BitVec.ofNat 32 i) = true := by decide
theorem witness_PreflushLoopTakesCountedTurns :
    (4 : Nat) = preflushCount 32 25 ∧ (0 : Nat) = preflushCount 7 25 ∧ (1 : Nat) = preflushCount 7 26 := by
  decide
theorem witness_PutUnderflowExactlyWhenCountTooOdd :
    ∃ t u, exec (.put 0 26) (packing 0x7F 7 0) = .next t ∧ t.fault = some .putUnderflow ∧
      exec (.put 0 25) (packing 0x7F 7 0) = .next u ∧ u.fault = none :=
  ⟨_, _, rfl, by decide, rfl, by decide⟩
theorem witness_PutOfNoBitsChangesNothing :
    (packing 1 1 0).fault = none ∧ (packing 1 1 0).active = true ∧ (packing 1 1 0).bitRegisterOk := by decide
theorem witness_PackerUnusableAfterFin :
    ∃ t, exec .fin (packing 1 1 0) = .next t ∧ t.fault = none ∧ (1 : Word).toNat < 2 ^ (1 : BitVec 6).toNat :=
  ⟨_, rfl, by decide, by decide⟩
theorem witness_InitStartsEmptyStream : ∃ t, base.fault = none ∧ exec (.init 4) base = .next t :=
  ⟨_, by decide, rfl⟩

/-- A stream of one set bit, still in ACC. -/
theorem layout_one_bit : Layout 0x10 [true] (packing 1 1 0x10) := by
  refine ⟨by decide, by decide, fun q hq => ?_, by decide⟩
  simp [packing] at hq

theorem witness_PutExtendsStreamLayout :
    ∃ t, Layout 0x10 [true] (packing 1 1 0x10) ∧ (packing 1 1 0x10).bitRegisterOk ∧
      (packing 1 1 0x10).fault = none ∧ exec (.put 0 25) (packing 1 1 0x10) = .next t ∧ t.fault = none ∧
      (packing 1 1 0x10).outPtr.toNat ≤ t.outPtr.toNat :=
  ⟨_, layout_one_bit, by decide, by decide, rfl, by decide, by decide⟩
theorem witness_FinLeavesWholeStreamInMemory :
    ∃ t, Layout 0x10 [true] (packing 1 1 0x10) ∧ (packing 1 1 0x10).bitRegisterOk ∧
      (packing 1 1 0x10).fault = none ∧ exec .fin (packing 1 1 0x10) = .next t ∧ t.fault = none ∧
      (packing 1 1 0x10).outPtr.toNat ≤ t.outPtr.toNat :=
  ⟨_, layout_one_bit, by decide, by decide, rfl, by decide, by decide⟩
/-- The hypotheses of PackedStreamReadsBack and of SessionWritesExactlyItsBytes, for the three PUTs of 95 section 1.1. -/
theorem witness_session :
    ∃ t, base.fault = none ∧ execList (session 0x1000 [(1, 1), (1, 2), (5, 3)]) base = .next t ∧
      t.fault = none ∧ (0x1000 : Word).toNat + ceil8 (streamBits [(1, 1), (1, 2), (5, 3)]).length < 2 ^ 32 :=
  ⟨_, by decide, rfl, by decide, by decide⟩
/-- The boundary of PackedStreamReadsBack: the last byte of the stream lies at 0xFFFFFFFF. -/
theorem witness_PackedStreamReadsBack_top :
    ∃ t, base.fault = none ∧ execList (session 0xFFFFFFFF [(0xA5, 8)]) base = .next t ∧ t.fault = none ∧
      (0xFFFFFFFF : Word).toNat + ceil8 (streamBits [(0xA5, 8)]).length = 2 ^ 32 :=
  ⟨_, by decide, rfl, by decide, by decide⟩
/-- `PUT 0xDEADBEEF, 32` would underflow here, at CNT = 1; its two parts do not. -/
theorem witness_SplitPutAppendsSameBits :
    ∃ t, 16 ≤ (32 : BitVec 6).toNat ∧ (32 : BitVec 6).toNat ≤ 32 ∧
      Layout 0x10 [true] (packing 1 1 0x10) ∧ (packing 1 1 0x10).bitRegisterOk ∧
      (packing 1 1 0x10).fault = none ∧
      execList [.put (BitVec.ofNat 32 ((0xDEADBEEF : Word).toNat % 2 ^ 16)) 16,
        .put ((0xDEADBEEF : Word) >>> 16) ((32 : BitVec 6) - 16)] (packing 1 1 0x10) = .next t ∧
      t.fault = none ∧ (packing 1 1 0x10).outPtr.toNat ≤ t.outPtr.toNat :=
  ⟨_, by decide, by decide, layout_one_bit, by decide, by decide, rfl, by decide, by decide⟩
theorem witness_Hash3ChecksThenAnswersHash :
    base.fault = none ∧ (0 : BitVec 6).toNat = 0 ∧ 32 < (33 : BitVec 6).toNat ∧
      1 ≤ (1 : BitVec 6).toNat ∧ (32 : BitVec 6).toNat ≤ 32 ∧ base.build.windowOrder = .byte0Lowest := by
  decide
theorem witness_Hash3CombinesInParameterOrder :
    base.fault = none ∧ 1 ≤ (17 : BitVec 6).toNat ∧ (17 : BitVec 6).toNat ≤ 32 ∧
      ({ base with build := { defaultBuild with windowOrder := .other } } : State).build.windowOrder = .other := by
  decide
theorem witness_HashIsBoundedPureAndPrefix :
    base.fault = none ∧ (packing 1 1 0).fault = none ∧ base.build = (packing 1 1 0).build ∧
      1 ≤ (17 : BitVec 6).toNat ∧ (17 : BitVec 6).toNat ≤ 32 := by decide
theorem witness_FullHashSeparatesWindows :
    defaultBuild.wf ∧ hashWindow defaultBuild 1 2 3 32 = hashWindow defaultBuild 1 2 3 32 := by decide
theorem witness_HashOfZeroAndOfOne :
    defaultBuild.windowOrder ≠ .other ∧ defaultBuild.windowOrder = .byte0Lowest := by decide
/-- MCOST, first clause, each end of the domain: length 2 and 567, position 0 and 2^21. -/
theorem witness_McostChecks_outside :
    base.fault = none ∧ (2 : BitVec 10).toNat < 3 ∧ 566 < (567 : BitVec 10).toNat ∧
      (0 : Word).toNat < base.build.posMin.val ∧ 2 ^ 21 - 1 < (2097152 : Word).toNat := by decide
/-- MCOST, second clause, the corners of the domain. -/
theorem witness_McostChecks_inside :
    3 ≤ (3 : BitVec 10).toNat ∧ (566 : BitVec 10).toNat ≤ 566 ∧
      base.build.posMin.val ≤ (1 : Word).toNat ∧ (2097151 : Word).toNat ≤ 2 ^ 21 - 1 := by decide
theorem witness_MagnitudeIsHighestSetBit :
    2097151 < 2 ^ 21 ∧ magnitude crush 63 = 5 ∧ magnitude crush 64 = 6 ∧ magnitude crush 2097151 = 20 := by
  decide
theorem witness_CostLiesBetween14And39 : 2097151 < 2 ^ 21 ∧ 3 ≤ 566 := by decide
theorem witness_CostRisesByClassAndLevel :
    (1 ≤ 2097151 ∧ 2097151 < 2 ^ 21) ∧ (63 < 64 ∧ 64 ≤ 127 ∧ 127 < 128) ∧
      (6 ≤ 19 ∧ 19 < 20 ∧ 2 ^ 19 ≤ 1048575 ∧ 1048575 < 2 ^ 20 ∧ 2 ^ 20 ≤ 1048576 ∧ 1048576 < 2 ^ 21) := by
  decide
theorem witness_FaultEntryWritesLatchOnly :
    ∃ t u, runCommand 0x3 base = .next t ∧ base.fault = none ∧ t.fault ≠ none ∧
      runCommand 0x1 { base with fault := some .busError } = .next u ∧ u.fault ≠ none :=
  ⟨_, _, rfl, by decide, by decide, rfl, by decide⟩
theorem witness_IllegalWordRaisesIllegalCmd :
    base.fault = none ∧ (∀ r ∈ opcodeTable, r.selects 0 = false) ∧
      ∀ r ∈ opcodeTable, r.selects 0x13 = false := by decide
theorem witness_CausesBelongToTheirOperations :
    ∃ t, base.fault = none ∧ base.bitRegisterOk ∧ runCommand 0x0000000300000012 base = .next t ∧
      t.fault = some .badOperand :=
  ⟨_, by decide, by decide, rfl, by decide⟩
theorem witness_LatchedFaultRefusesEveryWord :
    ({ base with fault := some .busError } : State).fault = some .busError := by decide
theorem witness_OnlyResetClearsLatch :
    ∃ t u, step ({ base with fault := some .busError }.present (.command 0x1)) = .next t ∧
      t.fault = some .busError ∧
      step ({ base with fault := some .busError }.present (.reset [])) = .next u ∧ u.fault = none :=
  ⟨_, _, rfl, by decide, rfl, by decide⟩
theorem witness_EveryWordGetsOneResponse : ∃ t, runCommand 0x0 base = .next t := ⟨_, rfl⟩
theorem witness_RunSuccessfulIffNoFaultAtEnd :
    ∃ t, Host.Core.run Sys2Proof.core 2
        { base with pending := [.command 0x0000000000000001, .command 0x0000000000000003] } = .next t ∧
      t.fault = none ∧ t.responses.length = 2 :=
  ⟨_, rfl, by decide, by decide⟩
theorem witness_NoCommandWritesOutsideGranted :
    ∃ t, runCommand 0x3 (grantedTo (packing 0xAB 8 0x10) [⟨0x10, 0x10⟩]) = .next t ∧
      (grantedTo (packing 0xAB 8 0x10) [⟨0x10, 0x10⟩]).isGranted 0x11 = false ∧ t.mem = [(0x10, 0xAB)] :=
  ⟨_, rfl, by decide, by decide⟩
theorem witness_OneCommandWritesAtMostFourBytes :
    ∃ t, (packing 0xABCDEF01 32 0).bitRegisterOk ∧ runCommand 0x3 (packing 0xABCDEF01 32 0) = .next t ∧
      ∀ i, i < 4 → ((0 : Word) + BitVec.ofNat 32 i).toNat ≠ 4 :=
  ⟨_, by decide, rfl, by decide⟩
theorem witness_PriorContentInfluencesNothing : ∃ t, runCommand 0x3 (packing 0xAB 8 0) = .next t := ⟨_, rfl⟩
theorem witness_InactivePackerReadsNoCursor : base.active = false := by decide
theorem witness_DisjointGrantsKeepInstancesApart :
    ∃ t t', runCommand 0x3 (grantedTo (packing 0xAB 8 0x10) []) = .next t ∧
      runCommand 0x3 (grantedTo (packing 0xAB 8 0x10) wholeSpace) = .next t' ∧
      ∀ a, (grantedTo (packing 0xAB 8 0x10) []).isGranted a = true →
        (grantedTo (packing 0xAB 8 0x10) wholeSpace).isGranted a = false :=
  ⟨_, _, rfl, rfl, fun a h => by simp [grantedTo, State.isGranted] at h⟩
theorem witness_DecodeOfEncodeIsIdentity : (Instr.mcost 0xFFFFFFFF 1023).wf = true := by decide
theorem witness_EncodeOfDecodeIsIdentity : decode 0x001FFFFF0008D805 = .instr (.mcost 2097151 566) := by decide
theorem witness_DecoderFollowsOpcodeTable :
    ∃ r ∈ opcodeTable, r.selects 0x0000000A00000C05 = true ∧ r.mnemonic = "MCOST" := by decide
theorem witness_AssemblerRefusesOnlyMisfits :
    (Line.put 0 63).fits = true ∧ (Line.put 0 64).fits = false := by decide

end Sys2Proof.Tests
end

/-! Proofs of the scope family (spec/00_scope.md): how a step reaches `exec` (R3, R29), and the class table (R7). -/

namespace Sys2Proof.Proofs

open Sys2Proof.Machine Sys2Proof.Laws

/-! From the command port to the operation. -/

/-- The step at which an event is first at the port runs it on the state without it (R29). -/
theorem step_of_pending {s : State} {e : HostEvent} {rest : List HostEvent} (h : s.pending = e :: rest) :
    step s = runEvent e { s with pending := rest } := by
  have hs : s = State.present { s with pending := rest } e := by rw [State.present, ← h]
  calc step s = step (State.present { s with pending := rest } e) := congrArg step hs
    _ = runEvent e { s with pending := rest } := step_present _ e

/-- A presented command word that decodes to an instruction is that instruction's meaning (R63). -/
theorem runEvent_command_of_decode {cw : PortWord} {i : Instr} (h : decode cw = .instr i) (s : State) :
    runEvent (.command cw) s = exec i s := by
  simp only [runEvent, runCommand, h]

theorem instr?_eq_some_iff {d : Decoded} {i : Instr} : d.instr? = some i ↔ d = .instr i := by
  cases d <;> simp [Decoded.instr?]

/-- Settles O4: the port hands the word to `runEvent`, which runs what it decodes to. -/
theorem stepRunsDecodedInstruction : Obligations.StepRunsDecodedInstruction := by
  refine ⟨fun s cw i rest hp hd => ?_, fun s nbits w i hd => ?_⟩
  · rw [step_of_pending hp, runEvent_command_of_decode hd]
  · have hw : decode (tableWord nbits w) = .instr i := instr?_eq_some_iff.1 hd
    rw [State.withFetchWord, step_present, runEvent_command_of_decode hw]

/-! The length classes. -/

/-- The bounds of the six classes (R7). -/
theorem limits_crush : crush.classes.map LengthClass.limit = [4, 8, 12, 20, 52, 564] := rfl

/-- The sizes of the six classes (R7). -/
theorem sizes_crush : crush.classes.map (fun c => 2 ^ c.extraBits) = [4, 4, 4, 8, 32, 512] := rfl

/-- Settles O32: the bounds of the class table are the partial sums of its sizes, and 564 = 566 - 3 + 1. -/
theorem lengthClassBoundsAreRunningSums : Obligations.LengthClassBoundsAreRunningSums := by
  refine ⟨rfl, fun k hk => ?_, ?_⟩
  · rw [List.map_take, sizes_crush, limits_crush]
    interval_cases k <;> rfl
  · rw [limits_crush, maxMatch_crush, minMatch_crush]
    rfl

end Sys2Proof.Proofs

/-! Proofs of the state family (spec/10_state.md): the Bit Register (R23), what no step changes (R31, R32, R42), the
cursor of an unbound packer (R34), and the STATUS view (R31). -/

namespace Sys2Proof.Proofs

open Sys2Proof.Machine Sys2Proof.Laws

/-! How a command word can end. -/

/-- A command word is refused, raises a fault, or completes the operation it decodes to (R133, R136, R139). -/
theorem runCommand_ends {cw : PortWord} {s t : State} (h : runCommand cw s = .next t) :
    t = s.refuse ∨ (∃ c, t = s.raise c) ∨ ∃ i, Completes i s t := by
  rcases runCommand_cases h with ⟨i, -, he⟩ | ⟨-, -, ⟨-, ht⟩ | ⟨-, ht⟩⟩
  · rcases exec_cases he with ⟨-, ht⟩ | ⟨-, ht⟩ | ⟨-, hc⟩
    · exact .inl ht
    · exact .inr (.inl ht)
    · exact .inr (.inr ⟨i, hc⟩)
  · exact .inl ht
  · exact .inr (.inl ⟨_, ht⟩)

/-! The Bit Register (R23). -/

/-- R23 with (I-b) as a bound on ACC. -/
theorem bitRegisterOk_iff {s : State} :
    s.bitRegisterOk ↔ s.cnt.toNat ≤ 32 ∧ s.acc.toNat < 2 ^ s.cnt.toNat := by
  simp [State.bitRegisterOk, Nat.shiftRight_eq_div_pow]

/-- An empty Bit Register is sound: what reset, INIT and FIN leave. -/
theorem bitRegisterOk_of_empty {s : State} (ha : s.acc = 0) (hc : s.cnt = 0) : s.bitRegisterOk := by
  simp [State.bitRegisterOk, ha, hc]

/-- R81: the pre-flush takes whole bytes off the low end of ACC and counts them off CNT. -/
theorem bitRegisterOk_preflush {s : State} {k : Nat} (h : s.bitRegisterOk) (hk : 8 * k ≤ s.cnt.toNat) :
    (s.preflush k).bitRegisterOk := by
  obtain ⟨hcnt, hacc⟩ := bitRegisterOk_iff.1 h
  have hcnt' : (s.preflush k).cnt.toNat = s.cnt.toNat - 8 * k := by
    rw [preflush_cnt, BitVec.toNat_ofNat, Nat.mod_eq_of_lt (by omega)]
  rw [bitRegisterOk_iff, hcnt', preflush_acc, BitVec.toNat_ushiftRight, Nat.shiftRight_eq_div_pow]
  refine ⟨by omega, Nat.div_lt_of_lt_mul ?_⟩
  rwa [← Nat.pow_add, Nat.add_sub_cancel' hk]

/-- R81, R85: bits merged in above CNT stay below the new count. -/
theorem bitRegisterOk_merge {s : State} {v : Word} {n : BitVec 6} (h : s.bitRegisterOk)
    (hv : v.toNat < 2 ^ n.toNat) (hroom : s.cnt.toNat + n.toNat ≤ 32) : (s.merge v n).bitRegisterOk := by
  obtain ⟨-, hacc⟩ := bitRegisterOk_iff.1 h
  have hcnt' : (s.merge v n).cnt.toNat = s.cnt.toNat + n.toNat := by
    rw [merge_cnt, BitVec.toNat_ofNat, Nat.mod_eq_of_lt (by omega)]
  have hold : s.acc.toNat < 2 ^ (s.cnt.toNat + n.toNat) :=
    hacc.trans_le (Nat.pow_le_pow_right (by decide) (Nat.le_add_right _ _))
  have hnew : (v <<< s.cnt.toNat).toNat < 2 ^ (s.cnt.toNat + n.toNat) := by
    rw [BitVec.toNat_shiftLeft, Nat.shiftLeft_eq, Nat.add_comm, Nat.pow_add]
    exact (Nat.mod_le _ _).trans_lt (Nat.mul_lt_mul_of_pos_right hv (Nat.two_pow_pos _))
  rw [bitRegisterOk_iff, hcnt', merge_acc, BitVec.toNat_or]
  exact ⟨hroom, Nat.or_lt_two_pow hold hnew⟩

/-- R83: a PUT that passes its checks finds room for its bits. -/
theorem bitRegisterOk_putDone {s : State} {v : Word} {n : BitVec 6} (h : s.bitRegisterOk)
    (hc : s.putCheck v n = none) : (s.putDone v n).bitRegisterOk := by
  obtain ⟨hdom, -, hk, -⟩ := putCheck_none_iff.1 hc
  obtain ⟨hn, hv⟩ : n.toNat ≤ 32 ∧ v.toNat < 2 ^ n.toNat := by simpa [putInDomain] using hdom
  have hroom : (s.preflush (s.putFlush n)).cnt.toNat + n.toNat ≤ 32 := by
    rw [preflush_cnt, BitVec.toNat_ofNat]
    exact (Nat.add_le_add_right (Nat.mod_le _ _) _).trans (preflush_leaves_room hn hk)
  exact bitRegisterOk_merge (bitRegisterOk_preflush h hk) hv hroom

theorem bitRegisterOk_completes {i : Instr} {s t : State} (h : s.bitRegisterOk) (hc : Completes i s t) :
    t.bitRegisterOk := by
  cases hc with
  | init => exact bitRegisterOk_of_empty rfl rfl
  | put _ v n hn => exact bitRegisterOk_putDone h hn
  | fin => exact bitRegisterOk_of_empty rfl rfl
  | hash3 => exact h
  | mcost => exact h

theorem bitRegisterOk_runCommand {cw : PortWord} {s t : State} (h : s.bitRegisterOk)
    (hr : runCommand cw s = .next t) : t.bitRegisterOk := by
  rcases runCommand_ends hr with rfl | ⟨c, rfl⟩ | ⟨i, hc⟩
  · exact h
  · exact h
  · exact bitRegisterOk_completes h hc

theorem bitRegisterOk_runEvent {e : HostEvent} {s t : State} (h : s.bitRegisterOk)
    (hr : runEvent e s = .next t) : t.bitRegisterOk := by
  cases e with
  | command cw => exact bitRegisterOk_runCommand h hr
  | reset g => cases hr; exact bitRegisterOk_of_empty rfl rfl
  | resetDuring cw g => cases hr; exact bitRegisterOk_of_empty rfl rfl
  | hostWrite a v => cases hr; exact h

/-- Settles O8: the Bit Register is empty. -/
theorem bitRegisterSoundAtReset : Obligations.BitRegisterSoundAtReset :=
  bitRegisterOk_of_empty reset_acc reset_cnt

/-- Settles O9: a step holds the state or runs one event, and every event keeps R23. -/
theorem everyStepKeepsBitRegisterSound : Obligations.EveryStepKeepsBitRegisterSound := by
  refine ⟨bitRegisterSoundAtReset, fun s t h hstep => ?_⟩
  rcases step_cases hstep with ⟨-, rfl⟩ | ⟨e, rest, -, hr⟩
  · exact h
  · exact bitRegisterOk_runEvent (s := { s with pending := rest }) h hr

/-! Parameters and Granted (R31, R32, R42). -/

theorem completes_parameters {i : Instr} {s t : State} (h : Completes i s t) :
    t.build = s.build ∧ t.granted = s.granted := by
  cases h <;> exact ⟨rfl, rfl⟩

/-- No command changes a parameter of the run (R32, R42). -/
theorem runCommand_parameters {cw : PortWord} {s t : State} (h : runCommand cw s = .next t) :
    t.build = s.build ∧ t.granted = s.granted := by
  rcases runCommand_ends h with rfl | ⟨c, rfl⟩ | ⟨i, hc⟩
  · exact ⟨rfl, rfl⟩
  · exact ⟨rfl, rfl⟩
  · exact completes_parameters hc

/-- Settles O11: commands and host writes change none of them, the two resets only Granted. -/
theorem noStepChangesParameters : Obligations.NoStepChangesParameters := by
  intro s t hstep
  rcases step_cases hstep with ⟨hp, rfl⟩ | ⟨e, rest, hp, hr⟩
  · simp [hp]
  · cases e with
    | command cw => simpa [hp] using runCommand_parameters hr
    | reset g => cases hr; simp [hp]
    | resetDuring cw g => cases hr; simp [hp, State.resetDuring]
    | hostWrite a v => cases hr; simp [hp]

/-! The cursor of an unbound packer (R34, U12). -/

/-- What R34 asks of a command's meaning: moving the cursor to `p` does not change the state it ends in at all, or moves
the cursor there and changes nothing else. -/
def CursorUnread (meaning : State → Host.Outcome State Fault Refusal) (s : State) (p : Word) : Prop :=
  ∃ t, meaning s = .next t ∧
    (meaning { s with outPtr := p } = .next t ∨
      t.outPtr = s.outPtr ∧ meaning { s with outPtr := p } = .next { t with outPtr := p })

/-- The front end reads no cursor, so it is enough to look at what runs behind it (R136, R139). -/
theorem cursorUnread_of_frontEnd {meaning : State → Host.Outcome State Fault Refusal} {run : State → State}
    {s : State} {p : Word} (hm : ∀ s, meaning s = s.frontEnd run)
    (h : run { s with outPtr := p } = run s ∨
      (run s).outPtr = s.outPtr ∧ run { s with outPtr := p } = { run s with outPtr := p }) :
    CursorUnread meaning s p := by
  simp only [CursorUnread, hm]
  by_cases hf : s.fault.isSome = true
  · exact ⟨s.refuse, frontEnd_latched hf run, .inr ⟨rfl, frontEnd_latched (s := { s with outPtr := p }) hf run⟩⟩
  · have hn : s.fault = none := by simpa using hf
    refine ⟨run s, frontEnd_run hn run, ?_⟩
    rw [frontEnd_run (s := { s with outPtr := p }) hn]
    exact h.imp (congrArg _) (And.imp_right (congrArg _))

/-- R81: an unbound packer fails PUT before any address is looked at. -/
theorem putCheck_inactive {s : State} (h : s.active = false) (v : Word) (n : BitVec 6) :
    s.putCheck v n = some (if putInDomain v n then .notActive else .badOperand) := by
  cases hd : putInDomain v n <;> simp [State.putCheck, hd, h]

/-- R82: an unbound packer fails FIN. -/
theorem finCheck_inactive {s : State} (h : s.active = false) : s.finCheck = some .notActive := by
  simp [State.finCheck, h]

/-- While ACTIVE is 0 no operation reads the cursor: INIT overwrites it, PUT and FIN fault before they use it, HASH3 and
MCOST have no use for it. -/
theorem exec_cursorUnread (i : Instr) {s : State} (p : Word) (h : s.active = false) :
    CursorUnread (exec i) s p := by
  have h' : ({ s with outPtr := p } : State).active = false := h
  cases i with
  | init dest => exact cursorUnread_of_frontEnd (exec_init dest) (.inl rfl)
  | put v n =>
    refine cursorUnread_of_frontEnd (exec_put v n) (.inr ?_)
    rw [putCheck_inactive h, putCheck_inactive h']
    exact ⟨rfl, rfl⟩
  | fin =>
    refine cursorUnread_of_frontEnd exec_fin (.inr ?_)
    rw [finCheck_inactive h, finCheck_inactive h']
    exact ⟨rfl, rfl⟩
  | hash3 b0 b1 b2 bits =>
    refine cursorUnread_of_frontEnd (exec_hash3 b0 b1 b2 bits) (.inr ?_)
    cases hashInDomain bits <;> exact ⟨rfl, rfl⟩
  | mcost position length =>
    refine cursorUnread_of_frontEnd (exec_mcost position length) (.inr ?_)
    cases costInDomain crush s.build.posMin.val position length <;> exact ⟨rfl, rfl⟩

/-- Settles O47: a legal word is its operation, and ILLEGAL_CMD reads no cursor either. -/
theorem inactivePackerReadsNoCursor : Obligations.InactivePackerReadsNoCursor := by
  intro cw s p h
  unfold runCommand
  cases decode cw with
  | instr i => exact exec_cursorUnread i p h
  | illegal why => exact cursorUnread_of_frontEnd (fun _ => rfl) (.inr ⟨rfl, rfl⟩)

/-! The fields at reset and the STATUS view. -/

/-- Settles O1: the fields of `State.reset`. -/
theorem resetLeavesPackerEmptyAndUnbound : Obligations.ResetLeavesPackerEmptyAndUnbound :=
  ⟨reset_acc, reset_cnt, reset_active, reset_fault⟩

/-- Settles O43: the concatenation of the fields, read as a sum. -/
theorem statusViewShowsItsFields : Obligations.StatusViewShowsItsFields := by
  intro s
  simp only [State.status, append_toNat, BitVec.toNat_ofBool, BitVec.toNat_ofNat]
  omega

end Sys2Proof.Proofs

/-! Proofs of the memory family (spec/20_memory.md): the canonical form (R40, R43), what a command can write and where
(R42, R44, R52), and the layout of the stream after INIT and FIN (R47). -/

namespace Sys2Proof.Proofs

open Sys2Proof.Machine Sys2Proof.Laws

/-! The canonical form (R40). -/

/-- Whatever a host's event writes, it writes by `Memory.write` at addresses of 32 bits. -/
theorem wf_runEvent {e : HostEvent} {s t : State} (h : s.mem.wf) (hr : runEvent e s = .next t) : t.mem.wf := by
  cases e with
  | command cw => rw [runCommand_mem hr]; exact writeFrom_wf _ _ h
  | reset g => cases hr; exact h
  | resetDuring cw g => cases hr; exact writeFrom_wf _ _ h
  | hostWrite a v => cases hr; exact write_wf v a.isLt h

/-- Settles O10: a step holds the state or runs one event, and every event keeps the form. -/
theorem everyStepKeepsMemoryCanonical : Obligations.EveryStepKeepsMemoryCanonical := by
  refine ⟨⟨.nil, by simp⟩, fun s t h hstep => ?_⟩
  rcases step_cases hstep with ⟨-, rfl⟩ | ⟨e, rest, -, hr⟩
  · exact h
  · exact wf_runEvent (s := { s with pending := rest }) h hr

/-! Granted (R42, R135). -/

/-- Settles O44: every address a command writes is granted, so a byte that is not granted is outside its run. -/
theorem noCommandWritesOutsideGranted : Obligations.NoCommandWritesOutsideGranted := by
  intro cw s t a hr ha
  rw [runCommand_mem hr]
  refine read_writeFrom_outside _ _ _ _ fun i hi heq => ?_
  have hg : s.isGranted a = true := BitVec.eq_of_toNat_eq heq ▸ bytesOfWord_granted cw s hi
  simp [ha] at hg

/-- Settles O48: an address granted to the first block is not granted to the second. -/
theorem disjointGrantsKeepInstancesApart : Obligations.DisjointGrantsKeepInstancesApart := by
  intro cw cw' s t s' t' hdisj hr hr' a
  cases ha : s.isGranted a with
  | false => exact .inl (noCommandWritesOutsideGranted cw s t a hr ha)
  | true => exact .inr (noCommandWritesOutsideGranted cw' s' t' a hr' (hdisj a ha))

/-! The prior content of memory (R44). -/

/-- A run of writes leaves an address alone or puts a byte there, whatever memory held before. -/
theorem read_writeFrom_cases (p : Word) {vs : List Byte} (hl : vs.length ≤ 2 ^ 32) (a : Nat) :
    (∀ m, Memory.read (Memory.writeFrom m p vs) a = Memory.read m a) ∨
      ∃ v, ∀ m, Memory.read (Memory.writeFrom m p vs) a = some v := by
  by_cases hin : ∃ i, i < vs.length ∧ (p + BitVec.ofNat 32 i).toNat = a
  · obtain ⟨i, hi, rfl⟩ := hin
    exact .inr ⟨vs[i], fun m => read_writeFrom_at m p vs hl hi⟩
  · exact .inl fun m => read_writeFrom_outside m p vs a fun i hi heq => hin ⟨i, hi, heq⟩

/-- What a command writes is chosen without a look at memory. -/
theorem bytesOfWord_setMem (cw : PortWord) (s : State) (m : Memory) :
    ({ s with mem := m } : State).bytesOfWord cw = s.bytesOfWord cw := by
  unfold State.bytesOfWord
  cases decode cw with
  | instr i => cases i <;> rfl
  | illegal why => rfl

/-- What R44 asks of a command's meaning on the rest of the state: other memory before it changes only memory after it. -/
def MemoryUnread (meaning : State → Host.Outcome State Fault Refusal) (s : State) (m : Memory) : Prop :=
  ∀ t, meaning s = .next t → ∃ t', meaning { s with mem := m } = .next t' ∧ t'.withoutMem = t.withoutMem

/-- The front end reads no memory, so it is enough to look at what runs behind it (R136, R139). -/
theorem memoryUnread_of_frontEnd {meaning : State → Host.Outcome State Fault Refusal} {run : State → State}
    {s : State} {m : Memory} (hm : ∀ s, meaning s = s.frontEnd run)
    (h : (run { s with mem := m }).withoutMem = (run s).withoutMem) : MemoryUnread meaning s m := by
  intro t ht
  rw [hm] at ht ⊢
  rcases frontEnd_cases ht with ⟨hf, rfl⟩ | ⟨hn, rfl⟩
  · exact ⟨_, frontEnd_latched (s := { s with mem := m }) hf run, rfl⟩
  · exact ⟨_, frontEnd_run (s := { s with mem := m }) hn run, h⟩

/-- Fault entry and refusal to do so read no memory (R133): it is enough to look at what is done after the checks. -/
theorem checked_withoutMem {s done done' : State} (m : Memory) (check : Option Cause)
    (h : done'.withoutMem = done.withoutMem) :
    (({ s with mem := m } : State).checked check done').withoutMem = (s.checked check done).withoutMem := by
  cases check with
  | none => exact h
  | some c => rfl

/-- No operation reads memory: its checks and what it does to the block are the same for any content (R40, R44). -/
theorem exec_memoryUnread (i : Instr) (s : State) (m : Memory) : MemoryUnread (exec i) s m := by
  cases i with
  | init dest => exact memoryUnread_of_frontEnd (exec_init dest) rfl
  | put v n => exact memoryUnread_of_frontEnd (exec_put v n) (checked_withoutMem m _ rfl)
  | fin => exact memoryUnread_of_frontEnd exec_fin (checked_withoutMem m _ rfl)
  | hash3 b0 b1 b2 bits => exact memoryUnread_of_frontEnd (exec_hash3 b0 b1 b2 bits) (checked_withoutMem m _ rfl)
  | mcost position length =>
    exact memoryUnread_of_frontEnd (exec_mcost position length) (checked_withoutMem m _ rfl)

theorem runCommand_memoryUnread (cw : PortWord) (s : State) (m : Memory) : MemoryUnread (runCommand cw) s m := by
  unfold runCommand
  cases decode cw with
  | instr i => exact exec_memoryUnread i s m
  | illegal why => exact memoryUnread_of_frontEnd (fun _ => rfl) rfl

/-- Settles O46: no meaning reads memory, and both runs write the same bytes at the same addresses. -/
theorem priorContentInfluencesNothing : Obligations.PriorContentInfluencesNothing := by
  intro cw s t m hr
  obtain ⟨t', hr', hrest⟩ := runCommand_memoryUnread cw s m t hr
  refine ⟨t', hr', hrest, fun a => ?_⟩
  have hlen : (s.bytesOfWord cw).length ≤ 2 ^ 32 := (bytesOfWord_length_le cw s).1.trans (by decide)
  rw [runCommand_mem hr, runCommand_mem hr', bytesOfWord_setMem]
  rcases read_writeFrom_cases s.outPtr hlen a with hkept | ⟨v, hput⟩
  · exact .inl ⟨hkept _, hkept _⟩
  · exact .inr ((hput _).trans (hput _).symm)

/-! The stream in memory (R47). -/

/-- Settles O19: no bit of the empty stream is anywhere. -/
theorem initStartsEmptyStream : Obligations.InitStartsEmptyStream := by
  intro dest s t hf h
  rw [exec_init, frontEnd_run hf] at h
  cases h
  simp [Layout, holdsBits]

/-- R47 (a), (c): the bits of the stream that are not committed are those of ACC. -/
theorem layout_split {dest : Word} {bits : List Bool} {s : State} (h : Layout dest bits s) :
    bits = bits.take (8 * (s.outPtr.toNat - dest.toNat)) ++ valueBits s.acc s.cnt.toNat := by
  obtain ⟨-, hlen, -, hacc⟩ := h
  have hdrop : bits.drop (8 * (s.outPtr.toNat - dest.toNat)) = valueBits s.acc s.cnt.toNat := by
    apply List.ext_getElem?
    intro j
    rw [List.getElem?_drop]
    by_cases hj : j < s.cnt.toNat
    · rw [hacc j hj, valueBits_getElem? _ hj]
    · rw [List.getElem?_eq_none (by omega), List.getElem?_eq_none (by rw [valueBits_length]; omega)]
  rw [← hdrop, List.take_append_drop]

/-- The bits of a value above its width are zero (R87). -/
theorem valueBits_pad {v : Word} {n m : Nat} (hv : v.toNat < 2 ^ n) (hnm : n ≤ m) :
    valueBits v m = valueBits v n ++ List.replicate (m - n) false := by
  apply List.ext_getElem
  · simp [hnm]
  · intro j hj hj'
    simp only [valueBits, List.getElem_append, List.getElem_map, List.getElem_range, List.length_map,
      List.length_range, List.getElem_replicate]
    split
    · rfl
    · rw [← BitVec.testBit_toNat]
      exact Nat.testBit_lt_two_pow (hv.trans_le (Nat.pow_le_pow_right (by decide) (by omega)))

/-- Bit `j` of the accumulator is bit `j mod 8` of byte `floor(j / 8)` of a flush (R45, R48). -/
theorem getLsbD_flushByte (acc : Word) (j : Nat) :
    (acc.extractLsb' (8 * (j / 8)) 8).getLsbD (j % 8) = acc.getLsbD j := by
  rw [BitVec.getLsbD_extractLsb', Nat.div_add_mod]
  simp [Nat.mod_lt]

/-- R47 (b), R48: where memory holds a stream of whole bytes up to the cursor, a flush of `k` bytes appends to it the low
`8k` bits of ACC (no byte past the top of the address space). -/
theorem holdsBits_commit {s : State} {d k : Nat} {bits : List Bool} (h : holdsBits s.mem d bits)
    (hd : d ≤ s.outPtr.toNat) (hlen : bits.length = 8 * (s.outPtr.toNat - d))
    (hwrap : s.outPtr.toNat + k ≤ 2 ^ 32) :
    holdsBits (s.commit k).mem d (bits ++ valueBits s.acc (8 * k)) := by
  have haddr : ∀ i, i < k → (s.outPtr + BitVec.ofNat 32 i).toNat = s.outPtr.toNat + i := by
    intro i hi
    rw [BitVec.toNat_add, BitVec.toNat_ofNat]
    omega
  intro q hq
  rw [List.length_append, valueBits_length] at hq
  by_cases hold : q < bits.length
  · obtain ⟨v, hv, hbit⟩ := h q hold
    refine ⟨v, ?_, by rw [List.getElem?_append_left hold, hbit]⟩
    rw [read_commit_outside, hv]
    intro i hi
    rw [haddr i hi]
    omega
  · obtain ⟨j, rfl⟩ := Nat.exists_eq_add_of_le (Nat.le_of_not_lt hold)
    have hi : j / 8 < k := by omega
    refine ⟨s.acc.extractLsb' (8 * (j / 8)) 8, ?_, ?_⟩
    · rw [← read_commit_at s (by omega) hi, haddr _ hi]
      congr 1
      omega
    · rw [List.getElem?_append_right (Nat.le_add_right _ _), Nat.add_sub_cancel_left,
        valueBits_getElem? _ (by omega), show (bits.length + j) % 8 = j % 8 by omega, getLsbD_flushByte]

/-- R11: whole bytes count as they are. -/
theorem ceil8_mul_add (b c : Nat) : ceil8 (8 * b + c) = b + ceil8 c := by
  unfold ceil8; omega

theorem le_mul_ceil8 (c : Nat) : c ≤ 8 * ceil8 c := by
  unfold ceil8; omega

/-- R47: the committed bits and the whole bytes FIN takes from ACC are the stream, zero-padded to whole bytes. -/
theorem layout_padded {dest : Word} {bits : List Bool} {s : State} (h : Layout dest bits s)
    (hreg : s.bitRegisterOk) :
    bits.take (8 * (s.outPtr.toNat - dest.toNat)) ++ valueBits s.acc (8 * s.finFlush) =
      bits ++ List.replicate (8 * ceil8 bits.length - bits.length) false := by
  obtain ⟨-, hacc⟩ := bitRegisterOk_iff.1 hreg
  have hk : s.cnt.toNat ≤ 8 * s.finFlush := le_mul_ceil8 _
  have hpad : 8 * ceil8 bits.length - bits.length = 8 * s.finFlush - s.cnt.toNat := by
    obtain ⟨-, hlen, -, -⟩ := h
    rw [← hlen, ceil8_mul_add, State.finFlush]
    omega
  calc bits.take _ ++ valueBits s.acc (8 * s.finFlush)
      = (bits.take _ ++ valueBits s.acc s.cnt.toNat) ++
          List.replicate (8 * s.finFlush - s.cnt.toNat) false := by
        rw [valueBits_pad hacc hk, List.append_assoc]
    _ = bits ++ List.replicate (8 * ceil8 bits.length - bits.length) false := by
        rw [← layout_split h, hpad]

/-- A FIN that leaves no fault passed its checks (R82, R139). -/
theorem eq_finDone_of_exec {s t : State} (h : exec .fin s = .next t) (hs : s.fault = none) (ht : t.fault = none) :
    t = s.finDone := by
  rcases exec_cases h with ⟨hf, -⟩ | ⟨-, c, rfl⟩ | ⟨-, hc⟩
  · simp [hs] at hf
  · simp at ht
  · cases hc; rfl

/-- Settles O21: FIN commits the rest of the stream with the zeros above CNT in ACC. -/
theorem finLeavesWholeStreamInMemory : Obligations.FinLeavesWholeStreamInMemory := by
  intro dest bits s t hlay hreg hs hexec ht hwrap
  obtain rfl := eq_finDone_of_exec hexec hs ht
  have ⟨hd, hlen, hmem, _⟩ := hlay
  have hk : s.finFlush ≤ 4 := ceil8_le_four hreg.1
  have hptr : s.finDone.outPtr.toNat = (s.outPtr.toNat + s.finFlush) % 2 ^ 32 := by
    simp [State.finDone, BitVec.toNat_add]
  have hnowrap : s.outPtr.toNat + s.finFlush < 2 ^ 32 := by omega
  refine ⟨?_, ?_, ?_⟩
  · rw [hptr, Nat.mod_eq_of_lt hnowrap, ← hlen, ceil8_mul_add, ← State.finFlush]
    omega
  · simp [State.finDone, responseWord_ok]
  · rw [← layout_padded hlay hreg]
    have htake : (bits.take (8 * (s.outPtr.toNat - dest.toNat))).length = 8 * (s.outPtr.toNat - dest.toNat) := by
      rw [List.length_take]
      omega
    exact holdsBits_commit hmem hd htake hnowrap.le

end Sys2Proof.Proofs

/-! Proofs of the encoding family (spec/30_encoding.md): the fields of a command word (R60, R61), the decoder against the
encoder (R63, R70) and against the opcode table (R62), the assembler (R69), and the response to every word (R64). -/

namespace Sys2Proof.Proofs

open Sys2Proof.Machine Sys2Proof.Laws

/-! The fields of a command word (R60, R61). -/

/-- A slice of a word as arithmetic on the word's value. -/
theorem slice_toNat {w : Nat} (x : BitVec w) (start len : Nat) :
    (x.extractLsb' start len).toNat = x.toNat / 2 ^ start % 2 ^ len := by
  rw [BitVec.extractLsb'_toNat, Nat.shiftRight_eq_div_pow]

/-- R60: a word is the sum of its five fields at their places. -/
theorem toNat_eq_sum_fields (w : PortWord) :
    w.toNat = (fieldA w).toNat * 2 ^ 32 + (fieldRsv w).toNat * 2 ^ 20 + (fieldLen w).toNat * 2 ^ 10 +
      (fieldN w).toNat * 2 ^ 4 + (fieldOp w).toNat := by
  have := w.isLt
  simp only [fieldA, fieldRsv, fieldLen, fieldN, fieldOp, slice_toNat]
  omega

/-- R61: the main operand is the sum of its four bytes at their places. -/
theorem fieldA_toNat_eq_sum_bytes (w : PortWord) :
    (fieldA w).toNat = (fieldB0 w).toNat + (fieldB1 w).toNat * 2 ^ 8 + (fieldB2 w).toNat * 2 ^ 16 +
      (fieldAHigh w).toNat * 2 ^ 24 := by
  simp only [fieldA, fieldB0, fieldB1, fieldB2, fieldAHigh, slice_toNat]
  omega

/-- R60: the packed word as a sum. -/
theorem packCommand_toNat (op : BitVec 4) (n : BitVec 6) (len : BitVec 10) (a : Word) :
    (packCommand op n len a).toNat = a.toNat * 2 ^ 32 + len.toNat * 2 ^ 10 + n.toNat * 2 ^ 4 + op.toNat := by
  simp only [packCommand, append_toNat, BitVec.toNat_ofNat]
  omega

/-- R61: the packed window as a sum. -/
theorem packWindow_toNat (b0 b1 b2 : Byte) :
    (packWindow b0 b1 b2).toNat = b0.toNat + b1.toNat * 2 ^ 8 + b2.toNat * 2 ^ 16 := by
  simp only [packWindow, append_toNat, BitVec.toNat_ofNat]
  omega

section PackedFields

variable (op : BitVec 4) (n : BitVec 6) (len : BitVec 10) (a : Word) (b0 b1 b2 : Byte)

@[simp] theorem fieldOp_packCommand : fieldOp (packCommand op n len a) = op := by
  apply BitVec.eq_of_toNat_eq
  rw [fieldOp, slice_toNat, packCommand_toNat]
  omega

@[simp] theorem fieldN_packCommand : fieldN (packCommand op n len a) = n := by
  apply BitVec.eq_of_toNat_eq
  rw [fieldN, slice_toNat, packCommand_toNat]
  omega

@[simp] theorem fieldLen_packCommand : fieldLen (packCommand op n len a) = len := by
  apply BitVec.eq_of_toNat_eq
  rw [fieldLen, slice_toNat, packCommand_toNat]
  omega

@[simp] theorem fieldRsv_packCommand : fieldRsv (packCommand op n len a) = 0 := by
  apply BitVec.eq_of_toNat_eq
  rw [fieldRsv, slice_toNat, packCommand_toNat]
  change _ = 0
  omega

@[simp] theorem fieldA_packCommand : fieldA (packCommand op n len a) = a := by
  apply BitVec.eq_of_toNat_eq
  rw [fieldA, slice_toNat, packCommand_toNat]
  omega

@[simp] theorem fieldB0_packWindow : fieldB0 (packCommand op n len (packWindow b0 b1 b2)) = b0 := by
  apply BitVec.eq_of_toNat_eq
  rw [fieldB0, slice_toNat, packCommand_toNat, packWindow_toNat]
  omega

@[simp] theorem fieldB1_packWindow : fieldB1 (packCommand op n len (packWindow b0 b1 b2)) = b1 := by
  apply BitVec.eq_of_toNat_eq
  rw [fieldB1, slice_toNat, packCommand_toNat, packWindow_toNat]
  omega

@[simp] theorem fieldB2_packWindow : fieldB2 (packCommand op n len (packWindow b0 b1 b2)) = b2 := by
  apply BitVec.eq_of_toNat_eq
  rw [fieldB2, slice_toNat, packCommand_toNat, packWindow_toNat]
  omega

@[simp] theorem fieldAHigh_packWindow : fieldAHigh (packCommand op n len (packWindow b0 b1 b2)) = 0 := by
  apply BitVec.eq_of_toNat_eq
  rw [fieldAHigh, slice_toNat, packCommand_toNat, packWindow_toNat]
  change _ = 0
  omega

end PackedFields

/-- R60: a word whose `rsv` is zero is packed from its other fields. -/
theorem packCommand_eq_of_fields {w : PortWord} {op : BitVec 4} {n : BitVec 6} {len : BitVec 10} {a : Word}
    (hop : fieldOp w = op) (hn : fieldN w = n) (hlen : fieldLen w = len) (hrsv : fieldRsv w = 0)
    (ha : fieldA w = a) : packCommand op n len a = w := by
  subst hop hn hlen ha
  apply BitVec.eq_of_toNat_eq
  rw [packCommand_toNat, toNat_eq_sum_fields w, hrsv]
  simp

/-- R61: a main operand whose high byte is zero is packed from its other bytes. -/
theorem fieldA_eq_packWindow {w : PortWord} (h : fieldAHigh w = 0) :
    fieldA w = packWindow (fieldB0 w) (fieldB1 w) (fieldB2 w) := by
  apply BitVec.eq_of_toNat_eq
  rw [packWindow_toNat, fieldA_toNat_eq_sum_bytes, h]
  simp

/-! The decoder and the encoder (R63). -/

/-- R63: an operation is read exactly when its must-be-zero fields are zero. -/
theorem requireZero_eq_instr_iff {zero : Bool} {i j : Instr} :
    requireZero zero i = .instr j ↔ zero = true ∧ i = j := by
  cases zero <;> simp [requireZero]

/-- R60, R61: no field of an encoded word overlaps another, so each operand comes back. -/
theorem decode_encode (i : Instr) : decode (encode i) = .instr i := by
  cases i <;> simp [encode, decode, requireZero]

/-- R62, R63: in each branch of the decoder its tests fix every field that is no operand. -/
theorem encode_of_decode {w : PortWord} {i : Instr} (h : decode w = .instr i) : encode i = w := by
  unfold decode at h
  split_ifs at h with hop hop hop hop hop <;>
    simp only [requireZero_eq_instr_iff, Bool.and_eq_true, decide_eq_true_eq, and_assoc] at h
  · obtain ⟨hn, hlen, hrsv, rfl⟩ := h
    exact packCommand_eq_of_fields hop hn hlen hrsv rfl
  · obtain ⟨hlen, hrsv, rfl⟩ := h
    exact packCommand_eq_of_fields hop rfl hlen hrsv rfl
  · obtain ⟨hn, hlen, hrsv, ha, rfl⟩ := h
    exact packCommand_eq_of_fields hop hn hlen hrsv ha
  · obtain ⟨hlen, hrsv, hhigh, rfl⟩ := h
    exact packCommand_eq_of_fields hop rfl hlen hrsv (fieldA_eq_packWindow hhigh)
  · obtain ⟨hn, hrsv, rfl⟩ := h
    exact packCommand_eq_of_fields hop hn rfl hrsv rfl

/-- The decoder reads an instruction from exactly one word, its encoding. -/
theorem decode_eq_instr_iff {w : PortWord} {i : Instr} : decode w = .instr i ↔ encode i = w :=
  ⟨encode_of_decode, fun h => h ▸ decode_encode i⟩

/-- Settles O49: the fields of an encoded word do not overlap, so each operand comes back. -/
theorem decodeOfEncodeIsIdentity : Obligations.DecodeOfEncodeIsIdentity :=
  fun i _ => decode_encode i

/-- Settles O50: a legal word is packed from its own fields, and the fields that are no operand are fixed. -/
theorem encodeOfDecodeIsIdentity : Obligations.EncodeOfDecodeIsIdentity :=
  fun _ _ => encode_of_decode

/-- Settles O53: the encoder prints the six words, and each decodes to what it encodes. -/
theorem specExampleWordsEncodeAndDecode : Obligations.SpecExampleWordsEncodeAndDecode := by
  have both {w : PortWord} {i : Instr} (h : encode i = w) : encode i = w ∧ decode w = .instr i :=
    ⟨h, decode_eq_instr_iff.2 h⟩
  exact ⟨both (by decide), both (by decide), both (by decide), both (by decide), both (by decide), both (by decide)⟩

/-! `rsv` (R60). -/

/-- R60: every instruction is encoded with `rsv` zero. -/
@[simp] theorem fieldRsv_encode (i : Instr) : fieldRsv (encode i) = 0 := by
  cases i <;> exact fieldRsv_packCommand _ _ _ _

/-- Settles O52: `rsv` is zero because a legal word is the encoding of its instruction; the sum needs no premise. -/
theorem commandWordIsSumOfFields : Obligations.CommandWordIsSumOfFields := by
  refine ⟨fun w i h => ?_, toNat_eq_sum_fields⟩
  rw [← encode_of_decode h, fieldRsv_encode]

/-! The opcode table (R62). -/

/-- R62: the encoded word of an instruction selects the instruction's own row. -/
theorem encode_selects (i : Instr) : TableWord.Statement i := by
  cases i with
  | init dest => exact TableWord.init dest
  | put value numBits => exact TableWord.put value numBits
  | fin => exact TableWord.fin
  | hash3 b0 b1 b2 bits => exact TableWord.hash3 b0 b1 b2 bits
  | mcost position length => exact TableWord.mcost position length

/-- A slice of a selecting word agrees with the row's value wherever the row's mask has ones (R62). -/
theorem slice_of_selects {r : OpcodeRow} {w : PortWord} (h : r.selects w = true) (start len : Nat)
    (hmask : r.mask.extractLsb' start len = BitVec.allOnes len) :
    w.extractLsb' start len = r.value.extractLsb' start len := by
  have hsel : w &&& r.mask = r.value := by simpa [OpcodeRow.selects] using h
  rw [← hsel, BitVec.extractLsb'_and, hmask, BitVec.and_allOnes]

/-- R62, R63: a row selects only words that decode to its operation: its mask covers `op` and every must-be-zero field. -/
theorem decode_of_selects {r : OpcodeRow} {w : PortWord} (hr : r ∈ opcodeTable) (h : r.selects w = true) :
    ∃ i, decode w = .instr i ∧ i.mnemonic = r.mnemonic := by
  have hslice := slice_of_selects h
  simp only [opcodeTable, List.mem_cons, List.not_mem_nil, or_false] at hr
  rcases hr with rfl | rfl | rfl | rfl | rfl
  · have hop : fieldOp w = 1 := hslice 0 4 (by decide)
    have hn : fieldN w = 0 := hslice 4 6 (by decide)
    have hlen : fieldLen w = 0 := hslice 10 10 (by decide)
    have hrsv : fieldRsv w = 0 := hslice 20 12 (by decide)
    exact ⟨.init (fieldA w), decode_eq_instr_iff.2 (packCommand_eq_of_fields hop hn hlen hrsv rfl), rfl⟩
  · have hop : fieldOp w = 2 := hslice 0 4 (by decide)
    have hlen : fieldLen w = 0 := hslice 10 10 (by decide)
    have hrsv : fieldRsv w = 0 := hslice 20 12 (by decide)
    exact ⟨.put (fieldA w) (fieldN w),
      decode_eq_instr_iff.2 (packCommand_eq_of_fields hop rfl hlen hrsv rfl), rfl⟩
  · have hop : fieldOp w = 3 := hslice 0 4 (by decide)
    have hn : fieldN w = 0 := hslice 4 6 (by decide)
    have hlen : fieldLen w = 0 := hslice 10 10 (by decide)
    have hrsv : fieldRsv w = 0 := hslice 20 12 (by decide)
    have ha : fieldA w = 0 := hslice 32 32 (by decide)
    exact ⟨.fin, decode_eq_instr_iff.2 (packCommand_eq_of_fields hop hn hlen hrsv ha), rfl⟩
  · have hop : fieldOp w = 4 := hslice 0 4 (by decide)
    have hlen : fieldLen w = 0 := hslice 10 10 (by decide)
    have hrsv : fieldRsv w = 0 := hslice 20 12 (by decide)
    have ha := fieldA_eq_packWindow (w := w) (hslice 56 8 (by decide))
    exact ⟨.hash3 (fieldB0 w) (fieldB1 w) (fieldB2 w) (fieldN w),
      decode_eq_instr_iff.2 (packCommand_eq_of_fields hop rfl hlen hrsv ha), rfl⟩
  · have hop : fieldOp w = 5 := hslice 0 4 (by decide)
    have hn : fieldN w = 0 := hslice 4 6 (by decide)
    have hrsv : fieldRsv w = 0 := hslice 20 12 (by decide)
    exact ⟨.mcost (fieldA w) (fieldLen w),
      decode_eq_instr_iff.2 (packCommand_eq_of_fields hop hn rfl hrsv rfl), rfl⟩

/-- A row of the opcode table is known by its mnemonic (R62). -/
theorem row_eq_of_mnemonic : ∀ r ∈ opcodeTable, ∀ r' ∈ opcodeTable, r.mnemonic = r'.mnemonic → r = r' := by
  decide

/-- Settles O51: selection and decoding agree both ways, and the operands are read off the encoding. -/
theorem decoderFollowsOpcodeTable : Obligations.DecoderFollowsOpcodeTable := by
  refine ⟨fun w i h => ?_, fun w r => decode_of_selects, fun w r r' hr hr' h h' => ?_, fun w => ⟨?_, ?_, ?_, ?_⟩⟩
  · obtain ⟨r, hr, hname, hsel⟩ := encode_selects i
    exact ⟨r, hr, encode_of_decode h ▸ hsel, hname⟩
  · obtain ⟨i, hi, hname⟩ := decode_of_selects hr h
    obtain ⟨i', hi', hname'⟩ := decode_of_selects hr' h'
    obtain rfl : i = i' := by simpa [hi] using hi'
    exact row_eq_of_mnemonic r hr r' hr' (hname.symm.trans hname')
  · intro dest h
    simp [← encode_of_decode h, encode]
  · intro v n h
    simp [← encode_of_decode h, encode]
  · intro b0 b1 b2 bits h
    simp [← encode_of_decode h, encode, packWindow_toNat]
  · intro p l h
    simp [← encode_of_decode h, encode]

/-! The assembler (R69). -/

/-- R69: a line whose operands fit is the line that writes its instruction. -/
theorem toLine_lineInstr {l : Line} (h : l.fits = true) : (lineInstr l).toLine = l := by
  cases l <;> simp_all [Line.fits, lineInstr, Instr.toLine, Nat.mod_eq_of_lt]

/-- Settles O54: the assembler tests only `Line.fits`, and the encoder keeps every operand that fits. -/
theorem assemblerRefusesOnlyMisfits : Obligations.AssemblerRefusesOnlyMisfits := by
  refine fun l => ⟨fun h => ?_, fun h => ?_⟩
  · simp [assemble, h]
  · exact ⟨encode (lineInstr l), lineInstr l, by simp [assemble, h], decode_encode _, toLine_lineInstr h⟩

/-! Responses (R64). -/

/-- R64, R65: a completed operation adds one OK response. -/
theorem completes_responses {i : Instr} {s t : State} (h : Completes i s t) :
    ∃ r, t.responses = s.responses ++ [responseWord .ok r] := by
  cases h <;> exact ⟨_, rfl⟩

/-- Settles O41: a refusal, a fault and a completed operation each add one response, the first two with result 0. -/
theorem everyWordGetsOneResponse : Obligations.EveryWordGetsOneResponse := by
  intro cw s t h
  rcases runCommand_ends h with rfl | ⟨c, rfl⟩ | ⟨i, hc⟩
  · exact ⟨.faulted, 0, rfl, responseWord_toNat _ _, fun _ => rfl⟩
  · exact ⟨.raised c, 0, rfl, responseWord_toNat _ _, fun _ => rfl⟩
  · obtain ⟨r, hr⟩ := completes_responses hc
    exact ⟨.ok, r, hr, responseWord_toNat _ _, fun h => absurd rfl h⟩

end Sys2Proof.Proofs

/-! Proofs of the packer family (spec/40_bit_packer.md): what INIT, PUT and FIN do (R80 to R82), the pre-flush count (R83,
R84), the lifecycle (R86, R88), and the stream a session leaves in memory (R87, R90, R92). -/

namespace Sys2Proof.Proofs

open Sys2Proof.Machine Sys2Proof.Laws

/-! How a packer operation ends (R139). -/

/-- An operation that leaves no fault latched met none and completed (R136, R139). -/
theorem completes_of_exec {i : Instr} {s t : State} (h : exec i s = .next t) (ht : t.fault = none) :
    s.fault = none ∧ Completes i s t := by
  rcases exec_cases h with ⟨hf, rfl⟩ | ⟨-, c, rfl⟩ | hc
  · rw [refuse_fault] at ht
    simp [ht] at hf
  · simp at ht
  · exact hc

/-- A PUT that leaves no fault latched passed its checks (R81). -/
theorem eq_putDone_of_exec {v : Word} {n : BitVec 6} {s t : State} (h : exec (.put v n) s = .next t)
    (ht : t.fault = none) : s.putCheck v n = none ∧ t = s.putDone v n := by
  obtain ⟨-, hc⟩ := completes_of_exec h ht
  cases hc with
  | put _ _ _ hcheck => exact ⟨hcheck, rfl⟩

/-- R81, R133: a check of PUT that fires changes only the latch and the response. -/
theorem exec_put_of_check {s : State} {v : Word} {n : BitVec 6} {c : Cause} (hs : s.fault = none)
    (h : s.putCheck v n = some c) : exec (.put v n) s = .next (s.faultedBy c) := by
  rw [exec_put, frontEnd_run hs, h, checked_some, raise_eq]

theorem exec_put_of_passed {s : State} {v : Word} {n : BitVec 6} (hs : s.fault = none)
    (h : s.putCheck v n = none) : exec (.put v n) s = .next (s.putDone v n) := by
  rw [exec_put, frontEnd_run hs, h, checked_none]

/-- R82, R133: a check of FIN that fires changes only the latch and the response. -/
theorem exec_fin_of_check {s : State} {c : Cause} (hs : s.fault = none) (h : s.finCheck = some c) :
    exec .fin s = .next (s.faultedBy c) := by
  rw [exec_fin, frontEnd_run hs, h, checked_some, raise_eq]

theorem exec_fin_of_passed {s : State} (hs : s.fault = none) (h : s.finCheck = none) :
    exec .fin s = .next s.finDone := by
  rw [exec_fin, frontEnd_run hs, h, checked_none]

/-! The checks of PUT and FIN, one by one (R81, R82). -/

theorem putInDomain_iff {v : Word} {n : BitVec 6} :
    putInDomain v n = true ↔ n.toNat ≤ 32 ∧ v.toNat < 2 ^ n.toNat := by
  simp [putInDomain]

theorem putCheck_badOperand {s : State} {v : Word} {n : BitVec 6}
    (h : ¬ (n.toNat ≤ 32 ∧ v.toNat < 2 ^ n.toNat)) : s.putCheck v n = some .badOperand := by
  rw [← putInDomain_iff, Bool.not_eq_true] at h
  simp [State.putCheck, h]

/-- R81: the last two checks, which a bound packer makes of operands in their domain. -/
theorem putCheck_active {s : State} {v : Word} {n : BitVec 6} (hd : putInDomain v n = true)
    (ha : s.active = true) : s.putCheck v n =
      if s.cnt.toNat < 8 * s.putFlush n then some .putUnderflow
      else if s.mayFlush (s.putFlush n) = false then some .busError else none := by
  simp [State.putCheck, hd, ha]

/-- R81: how a PUT with operands in their domain ends while the packer is bound and no fault is latched. -/
theorem exec_put_active {s : State} {v : Word} {n : BitVec 6} (hs : s.fault = none)
    (hd : putInDomain v n = true) (ha : s.active = true) : exec (.put v n) s = .next
      (if s.cnt.toNat < 8 * s.putFlush n then s.faultedBy .putUnderflow
      else if s.mayFlush (s.putFlush n) = false then s.faultedBy .busError else s.putDone v n) := by
  have hcheck := putCheck_active (s := s) hd ha
  split_ifs at hcheck ⊢
  · exact exec_put_of_check hs hcheck
  · exact exec_put_of_check hs hcheck
  · exact exec_put_of_passed hs hcheck

/-- R135: a flush is refused when one of its addresses is outside Granted. -/
theorem mayFlush_eq_false {s : State} {k : Nat}
    (h : ∃ i, i < k ∧ s.isGranted (s.outPtr + BitVec.ofNat 32 i) = false) : s.mayFlush k = false := by
  obtain ⟨i, hi, hg⟩ := h
  rw [← Bool.not_eq_true, mayFlush_iff]
  intro hall
  simp [hall i hi] at hg

/-! INIT (R80). -/

/-- Settles O12: INIT has no check behind the latch. -/
theorem initBindsCursorAndEmptiesRegister : Obligations.InitBindsCursorAndEmptiesRegister := by
  intro dest s hs
  rw [exec_init, frontEnd_run hs, respond_ok_eq]
  rfl

/-! The pre-flush count (R83, R84). -/

/-- R83: the pre-flush takes the fewest bytes that make room for `n` bits. -/
theorem preflushCount_spec {c n : Nat} (hn : n ≤ 32) :
    (c : Int) - 8 * preflushCount c n ≤ 32 - n ∧
      (0 < preflushCount c n → (32 : Int) - n < c - 8 * preflushCount c n + 8) := by
  unfold preflushCount ceil8
  split <;> omega

/-- R84: the pre-flush would take more than the count holds. -/
theorem preflushCount_underflow_iff {c n : Nat} (hn : n ≤ 32) :
    c < 8 * preflushCount c n ↔ n > 32 - c % 8 := by
  have := preflushCount_spec (c := c) hn
  omega

/-- R81: the loop stops at the first count that leaves room. -/
theorem preflushLoop_of_room {c : Int} {n : Nat} (h : c ≤ 32 - n) (fuel : Nat) :
    preflushLoop fuel c n = (0, c) := by
  cases fuel with
  | zero => rfl
  | succ fuel => rw [preflushLoop, if_neg (by omega)]

/-- R81, R83: with fuel enough the loop takes the fewest turns that make room. -/
theorem preflushLoop_eq {n k : Nat} : ∀ {fuel : Nat} {c : Int}, k ≤ fuel → c - 8 * k ≤ 32 - n →
    (0 < k → 32 - (n : Int) < c - 8 * k + 8) → preflushLoop fuel c n = (k, c - 8 * k) := by
  induction k with
  | zero =>
    intro fuel c _ hroom _
    rw [preflushLoop_of_room (by omega)]
    simp
  | succ k ih =>
    intro fuel c hfuel hroom hfew
    obtain ⟨fuel, rfl⟩ := Nat.exists_eq_add_of_le' (Nat.one_le_of_lt hfuel)
    rw [preflushLoop, if_pos (by omega), ih (by omega) (by omega) (by omega)]
    ext
    · rfl
    · push_cast
      ring

/-- Settles O15: the loop takes the fewest turns that make room, and so does the closed form. -/
theorem preflushLoopTakesCountedTurns : Obligations.PreflushLoopTakesCountedTurns := by
  rintro c n fuel k hc hn hfuel rfl
  obtain ⟨hroom, hfew⟩ := preflushCount_spec (c := c) hn
  have hfour := preflushCount_le_four (n := n) hc
  refine ⟨preflushLoop_eq (hfour.trans hfuel) hroom hfew, hfour, ?_, hroom, hfew, ?_, ?_⟩
  · omega
  · have := preflushCount_underflow_iff (c := c) hn
    omega
  · omega

/-- R81: only the third check of PUT raises PUT_UNDERFLOW. -/
theorem putUnderflow_iff {s t : State} {v : Word} {n : BitVec 6} (hs : s.fault = none) (ha : s.active = true)
    (hd : putInDomain v n = true) (h : exec (.put v n) s = .next t) :
    t.fault = some .putUnderflow ↔ s.cnt.toNat < 8 * s.putFlush n := by
  rw [exec_put_active hs hd ha] at h
  split_ifs at h with hk hm <;> cases h
  · simp [State.faultedBy, hk]
  · simp [State.faultedBy, hk]
  · simp [State.putDone, hs, hk]

/-- Settles O16: the check of R81 fires exactly at the counts of R84. -/
theorem putUnderflowExactlyWhenCountTooOdd : Obligations.PutUnderflowExactlyWhenCountTooOdd := by
  intro v n s t hs hreg ha hn hv h
  have hd : putInDomain v n = true := putInDomain_iff.2 ⟨hn, hv⟩
  have hiff := putUnderflow_iff hs ha hd h
  have hodd : t.fault = some .putUnderflow ↔ n.toNat > 32 - s.cnt.toNat % 8 :=
    hiff.trans (preflushCount_underflow_iff hn)
  refine ⟨hodd, fun hn25 hf => ?_, fun hc8 hf => ?_, fun hf => ?_⟩
  · have := hodd.1 hf
    omega
  · have := hodd.1 hf
    omega
  · rw [exec_put_active hs hd ha, if_pos (hiff.1 hf)] at h
    cases h
    rfl

/-! PUT (R81, R86). -/

/-- R81: the count after the pre-flush. -/
theorem preflush_cnt_toNat (s : State) (k : Nat) : (s.preflush k).cnt.toNat = s.cnt.toNat - 8 * k := by
  have := s.cnt.isLt
  rw [preflush_cnt, BitVec.toNat_ofNat, Nat.mod_eq_of_lt (by omega)]

/-- R81: the count after the merge, which has room for the new bits. -/
theorem merge_cnt_toNat {s : State} {n : BitVec 6} (v : Word) (h : s.cnt.toNat + n.toNat ≤ 32) :
    (s.merge v n).cnt.toNat = s.cnt.toNat + n.toNat := by
  rw [merge_cnt, BitVec.toNat_ofNat, Nat.mod_eq_of_lt (by omega)]

/-- R81, R85: no bit of the value is shifted out of ACC where the register has room for it. -/
theorem merge_acc_toNat {s : State} {v : Word} {n : BitVec 6} (hv : v.toNat < 2 ^ n.toNat)
    (h : s.cnt.toNat + n.toNat ≤ 32) :
    (s.merge v n).acc.toNat = s.acc.toNat ||| v.toNat <<< s.cnt.toNat := by
  have hfits : v.toNat <<< s.cnt.toNat < 2 ^ 32 := by
    calc v.toNat <<< s.cnt.toNat = v.toNat * 2 ^ s.cnt.toNat := Nat.shiftLeft_eq _ _
      _ < 2 ^ n.toNat * 2 ^ s.cnt.toNat := Nat.mul_lt_mul_of_pos_right hv (Nat.two_pow_pos _)
      _ = 2 ^ (s.cnt.toNat + n.toNat) := by rw [← Nat.pow_add, Nat.add_comm]
      _ ≤ 2 ^ 32 := Nat.pow_le_pow_right (by decide) h
  rw [merge_acc, BitVec.toNat_or, BitVec.toNat_shiftLeft, Nat.mod_eq_of_lt hfits]

/-- R83: a PUT that passes its checks has room for its bits after the pre-flush. -/
theorem putCheck_none_room {s : State} {v : Word} {n : BitVec 6} (h : s.putCheck v n = none) :
    (s.preflush (s.putFlush n)).cnt.toNat + n.toNat ≤ 32 := by
  obtain ⟨hd, -, hk, -⟩ := putCheck_none_iff.1 h
  rw [preflush_cnt_toNat]
  exact preflush_leaves_room (putInDomain_iff.1 hd).1 hk

/-- Settles O13: one case per check, and the fields of `State.putDone`. -/
theorem putChecksThenAppends : Obligations.PutChecksThenAppends := by
  intro v n s k hs hreg hk
  obtain rfl : k = s.putFlush n := hk
  refine ⟨fun hn => ?_, fun hn hv => ?_, fun hn hv => ?_⟩
  · exact exec_put_of_check hs (putCheck_badOperand (by omega))
  · exact exec_put_of_check hs (putCheck_badOperand (by omega))
  have hd : putInDomain v n = true := putInDomain_iff.2 ⟨hn, hv⟩
  refine ⟨fun ha => ?_, fun ha hk => ?_, fun ha hk hg => ?_, fun ha hk hg => ?_⟩
  · exact exec_put_of_check hs (by rw [putCheck_inactive ha, if_pos hd])
  · rw [exec_put_active hs hd ha, if_pos hk]
  · rw [exec_put_active hs hd ha, if_neg (by omega), if_pos (mayFlush_eq_false hg)]
  · have hcheck : s.putCheck v n = none := putCheck_none_iff.2 ⟨hd, ha, hk, mayFlush_iff.2 hg⟩
    have hroom := putCheck_none_room hcheck
    have hsmall : s.putFlush n ≤ 2 ^ 32 := (preflushCount_le_four hreg.1).trans (by decide)
    refine ⟨s.putDone v n, exec_put_of_passed hs hcheck, ?_, ?_, rfl, ?_, fun i hi => ?_, fun a hout => ?_,
      ha, hs, rfl, rfl, rfl, rfl⟩
    · have hacc := merge_acc_toNat hv hroom
      rwa [preflush_cnt_toNat, preflush_acc, BitVec.toNat_ushiftRight] at hacc
    · have hcnt := merge_cnt_toNat v hroom
      rwa [preflush_cnt_toNat] at hcnt
    · simp [State.putDone, responseWord_ok]
    · exact read_commit_at s hsmall hi
    · exact read_commit_outside s _ hout

theorem preflush_zero (s : State) : s.preflush 0 = s := by
  simp [State.preflush, State.commit, flushBytes, Memory.writeFrom]

theorem merge_zero (s : State) : s.merge 0 0 = s := by
  simp [State.merge]

/-- Settles O17: a PUT of no bits flushes nothing at a legal count, and merges nothing. -/
theorem putOfNoBitsChangesNothing : Obligations.PutOfNoBitsChangesNothing := by
  intro s hs ha hreg
  have hk : s.putFlush 0 = 0 := by
    have := hreg.1
    simp [State.putFlush, preflushCount, this]
  have hcheck : s.putCheck 0 0 = none :=
    putCheck_none_iff.2 ⟨by decide, ha, by omega, mayFlush_iff.2 fun i hi => by omega⟩
  rw [exec_put_of_passed hs hcheck, State.putDone, hk, preflush_zero, merge_zero, respond_ok_eq]

/-! FIN (R82, R88). -/

/-- Settles O14: one case per check, and the fields of `State.finDone`. -/
theorem finChecksThenDrains : Obligations.FinChecksThenDrains := by
  intro s k hs hk
  obtain rfl : k = s.finFlush := hk
  refine ⟨fun ha => ?_, fun ha hg => ?_, fun ha hg => ?_⟩
  · exact exec_fin_of_check hs (finCheck_inactive ha)
  · exact exec_fin_of_check hs (by simp [State.finCheck, ha, mayFlush_eq_false hg])
  · have hcheck : s.finCheck = none := finCheck_none_iff.2 ⟨ha, mayFlush_iff.2 hg⟩
    have hsmall : s.finFlush ≤ 2 ^ 32 := by
      have := s.cnt.isLt
      unfold State.finFlush ceil8
      omega
    refine ⟨s.finDone, exec_fin_of_passed hs hcheck, rfl, rfl, rfl, rfl, ?_, fun i hi => ?_, fun a hout => ?_,
      hs, rfl, rfl, rfl, rfl⟩
    · simp [State.finDone, responseWord_ok]
    · exact read_commit_at s hsmall hi
    · exact read_commit_outside s _ hout

/-- Settles O18: a FIN that completed leaves the packer unbound. -/
theorem packerUnusableAfterFin : Obligations.PackerUnusableAfterFin := by
  intro s t v n h ht hn hv
  obtain ⟨hs, -⟩ := completes_of_exec h ht
  have ha : t.active = false := by
    rw [eq_finDone_of_exec h hs ht]
    rfl
  have hd : putInDomain v n = true := putInDomain_iff.2 ⟨hn, hv⟩
  exact ⟨exec_put_of_check ht (by rw [putCheck_inactive ha, if_pos hd]),
    exec_fin_of_check ht (finCheck_inactive ha)⟩

/-! The layout law under PUT (R47, R87). -/

/-- R47: memory holds whole committed bytes of the stream up to the cursor, and ACC the rest of it. -/
theorem layout_iff {dest : Word} {bits : List Bool} {s : State} :
    Layout dest bits s ↔ dest.toNat ≤ s.outPtr.toNat ∧
      ∃ committed : List Bool, committed.length = 8 * (s.outPtr.toNat - dest.toNat) ∧
        holdsBits s.mem dest.toNat committed ∧ bits = committed ++ valueBits s.acc s.cnt.toNat := by
  constructor
  · intro h
    have hsplit := layout_split h
    obtain ⟨hd, hlen, hmem, -⟩ := h
    exact ⟨hd, bits.take _, by rw [List.length_take]; omega, hmem, hsplit⟩
  · rintro ⟨hd, committed, hlen, hmem, rfl⟩
    refine ⟨hd, by simp [hlen], by rwa [← hlen, List.take_left], fun j hj => ?_⟩
    rw [← hlen, List.getElem?_append_right (Nat.le_add_right _ _), Nat.add_sub_cancel_left,
      valueBits_getElem? _ hj]

/-- R45: the low `m` bits of a value, then the bits that a shift by `m` brings down. -/
theorem valueBits_append (v : Word) (m n : Nat) :
    valueBits v (m + n) = valueBits v m ++ valueBits (v >>> m) n := by
  simp [valueBits, List.range_add, Function.comp_def]

/-- R85: bits OR'ed into zeros above `c` follow the `c` bits below. -/
theorem valueBits_merge {acc : Word} (v : Word) {c n : Nat} (hacc : acc.toNat < 2 ^ c) (h : c + n ≤ 32) :
    valueBits (acc ||| v <<< c) (c + n) = valueBits acc c ++ valueBits v n := by
  apply List.ext_getElem?
  intro j
  by_cases hold : j < c
  · rw [valueBits_getElem? _ (by omega), List.getElem?_append_left (by simpa using hold), valueBits_getElem? _ hold]
    simp [hold]
  · obtain ⟨i, rfl⟩ := Nat.exists_eq_add_of_le (Nat.le_of_not_lt hold)
    rw [List.getElem?_append_right (by simp), valueBits_length, Nat.add_sub_cancel_left]
    by_cases hi : i < n
    · have habove : acc.getLsbD (c + i) = false := by
        rw [← BitVec.testBit_toNat]
        exact Nat.testBit_lt_two_pow (hacc.trans_le (Nat.pow_le_pow_right (by decide) (by omega)))
      rw [valueBits_getElem? _ (by omega), valueBits_getElem? _ hi, BitVec.getLsbD_or, habove,
        BitVec.getLsbD_shiftLeft]
      simp [show c + i < 32 by omega]
    · rw [List.getElem?_eq_none (by simp; omega), List.getElem?_eq_none (by simp; omega)]

/-- R27: an address that does not wrap. -/
theorem cursor_add_toNat {p : Word} {i : Nat} (h : p.toNat + i < 2 ^ 32) :
    (p + BitVec.ofNat 32 i).toNat = p.toNat + i := by
  rw [BitVec.toNat_add, BitVec.toNat_ofNat]
  omega

/-- R81: a pre-flush moves whole bytes of the stream from ACC to memory. -/
theorem layout_preflush {dest : Word} {bits : List Bool} {s : State} {k : Nat} (h : Layout dest bits s)
    (hk : 8 * k ≤ s.cnt.toNat) (hwrap : s.outPtr.toNat + k < 2 ^ 32) : Layout dest bits (s.preflush k) := by
  obtain ⟨hd, committed, hlen, hmem, rfl⟩ := layout_iff.1 h
  have hptr : (s.preflush k).outPtr.toNat = s.outPtr.toNat + k := cursor_add_toNat hwrap
  refine layout_iff.2 ⟨by omega, committed ++ valueBits s.acc (8 * k), ?_, ?_, ?_⟩
  · rw [List.length_append, valueBits_length, hptr]
    omega
  · exact holdsBits_commit hmem hd hlen hwrap.le
  · rw [preflush_cnt_toNat, preflush_acc, List.append_assoc, ← valueBits_append, Nat.add_sub_cancel' hk]

/-- R81, R85: a merge appends the bits of the value to the stream. -/
theorem layout_merge {dest : Word} {bits : List Bool} {s : State} {n : BitVec 6} (v : Word)
    (h : Layout dest bits s) (hreg : s.bitRegisterOk) (hroom : s.cnt.toNat + n.toNat ≤ 32) :
    Layout dest (bits ++ valueBits v n.toNat) (s.merge v n) := by
  obtain ⟨-, hacc⟩ := bitRegisterOk_iff.1 hreg
  obtain ⟨hd, committed, hlen, hmem, rfl⟩ := layout_iff.1 h
  refine layout_iff.2 ⟨hd, committed, hlen, hmem, ?_⟩
  rw [merge_cnt_toNat v hroom, merge_acc, valueBits_merge v hacc hroom, List.append_assoc]

/-- R87: a PUT that passes its checks appends its bits to the stream. -/
theorem layout_putDone {dest : Word} {bits : List Bool} {s : State} {v : Word} {n : BitVec 6}
    (h : Layout dest bits s) (hreg : s.bitRegisterOk) (hcheck : s.putCheck v n = none)
    (hwrap : s.outPtr.toNat + s.putFlush n < 2 ^ 32) :
    Layout dest (bits ++ valueBits v n.toNat) (s.putDone v n) := by
  obtain ⟨-, -, hk, -⟩ := putCheck_none_iff.1 hcheck
  exact layout_merge v (layout_preflush h hk hwrap) (bitRegisterOk_preflush hreg hk) (putCheck_none_room hcheck)

/-- R81: the count after a PUT. -/
theorem putDone_cnt_toNat {s : State} {v : Word} {n : BitVec 6} (hcheck : s.putCheck v n = none) :
    (s.putDone v n).cnt.toNat = s.cnt.toNat - 8 * s.putFlush n + n.toNat := by
  rw [← preflush_cnt_toNat]
  exact merge_cnt_toNat v (putCheck_none_room hcheck)

/-- Settles O20: the pre-flush keeps the stream where the layout law puts it, the merge appends to it. -/
theorem putExtendsStreamLayout : Obligations.PutExtendsStreamLayout := by
  intro dest bits v n s t hlay hreg hs hexec ht hnowrap
  obtain ⟨hcheck, rfl⟩ := eq_putDone_of_exec hexec ht
  have hk : s.putFlush n ≤ 4 := preflushCount_le_four hreg.1
  have hptr : (s.putDone v n).outPtr.toNat = (s.outPtr.toNat + s.putFlush n) % 2 ^ 32 := by
    simp [State.putDone, BitVec.toNat_add]
  refine ⟨layout_putDone hlay hreg hcheck (by omega), ?_, (bitRegisterOk_putDone hreg hcheck).1⟩
  rw [putDone_cnt_toNat hcheck]
  exact Nat.le_add_left _ _

/-! A session (R166): the layout law and the frame along its PUTs. -/

/-- R44: a flush that does not wrap keeps every byte below the cursor and every byte above its `k` bytes. -/
theorem read_commit_outside_run {s : State} {k a : Nat} (hwrap : s.outPtr.toNat + k ≤ 2 ^ 32)
    (ha : a < s.outPtr.toNat ∨ s.outPtr.toNat + k ≤ a) :
    Memory.read (s.commit k).mem a = Memory.read s.mem a := by
  refine read_commit_outside s k fun i hi => ?_
  rw [cursor_add_toNat (by omega)]
  omega

/-- Where a session that began at `dest` over the memory `m` stands when its stream is `bits`: the layout law (R47), the
Bit Register (R23), and no byte touched but those of the stream (R92). -/
structure Packing (dest : Word) (m : Memory) (bits : List Bool) (s : State) : Prop where
  layout : Layout dest bits s
  register : s.bitRegisterOk
  frame : ∀ a, a < dest.toNat ∨ dest.toNat + ceil8 bits.length ≤ a → Memory.read s.mem a = Memory.read m a

theorem packing_init {dest : Word} {s t : State} (h : exec (.init dest) s = .next t) (ht : t.fault = none) :
    Packing dest s.mem [] t := by
  obtain ⟨hs, hc⟩ := completes_of_exec h ht
  refine ⟨initStartsEmptyStream dest s t hs h, ?_, ?_⟩ <;> cases hc
  · exact bitRegisterOk_of_empty rfl rfl
  · exact fun _ _ => rfl

/-- R11: more bits take no fewer bytes. -/
theorem ceil8_mono {a b : Nat} (h : a ≤ b) : ceil8 a ≤ ceil8 b := by
  unfold ceil8
  omega

/-- R83: a PUT of no bits needs no pre-flush. -/
theorem pos_of_preflushCount_pos {c n : Nat} (hc : c ≤ 32) (h : 0 < preflushCount c n) : 0 < n := by
  by_contra hn
  obtain rfl : n = 0 := by omega
  rw [preflushCount, if_neg (by omega)] at h
  omega

/-- R47: a PUT that flushes leaves bits in ACC, so the cursor does not reach the end of the stream. -/
theorem putFlush_below_end {dest : Word} {bits : List Bool} {s : State} {n : BitVec 6} (h : Layout dest bits s)
    (hreg : s.bitRegisterOk) (hk : 8 * s.putFlush n ≤ s.cnt.toNat) (hpos : 0 < s.putFlush n) :
    s.outPtr.toNat + s.putFlush n < dest.toNat + ceil8 (bits.length + n.toNat) := by
  obtain ⟨hd, hlen, -, -⟩ := h
  have hn : 0 < n.toNat := pos_of_preflushCount_pos hreg.1 hpos
  have := le_mul_ceil8 (bits.length + n.toNat)
  omega

/-- R87, R92: a completed PUT whose stream ends inside the address space. -/
theorem packing_put {dest : Word} {m : Memory} {bits : List Bool} {v : Word} {n : BitVec 6} {s t : State}
    (h : Packing dest m bits s) (hexec : exec (.put v n) s = .next t) (ht : t.fault = none)
    (htop : dest.toNat + ceil8 (bits ++ valueBits v n.toNat).length ≤ 2 ^ 32) :
    Packing dest m (bits ++ valueBits v n.toNat) t := by
  obtain ⟨hlay, hreg, hframe⟩ := h
  obtain ⟨hcheck, rfl⟩ := eq_putDone_of_exec hexec ht
  obtain ⟨-, -, hk, -⟩ := putCheck_none_iff.1 hcheck
  have hend := putFlush_below_end hlay hreg hk
  have hptr := s.outPtr.isLt
  have hmono : ceil8 bits.length ≤ ceil8 (bits.length + n.toNat) := ceil8_mono (Nat.le_add_right _ _)
  rw [List.length_append, valueBits_length] at htop
  have hnowrap : s.outPtr.toNat + s.putFlush n < 2 ^ 32 := by omega
  refine ⟨layout_putDone hlay hreg hcheck hnowrap, bitRegisterOk_putDone hreg hcheck, fun a ha => ?_⟩
  rw [List.length_append, valueBits_length] at ha
  have hout : a < s.outPtr.toNat ∨ s.outPtr.toNat + s.putFlush n ≤ a := by
    obtain ⟨hd, hlen, -, -⟩ := hlay
    have := le_mul_ceil8 (bits.length + n.toNat)
    omega
  calc Memory.read (s.putDone v n).mem a = Memory.read s.mem a := read_commit_outside_run hnowrap.le hout
    _ = Memory.read m a := hframe a (by omega)

/-- A run of a list of operations begins with its first operation (R174). -/
theorem execList_cons {i : Instr} {is : List Instr} {s t : State} (h : execList (i :: is) s = .next t) :
    ∃ u, exec i s = .next u ∧ execList is u = .next t := by
  obtain ⟨u, hu⟩ := exec_next i s
  exact ⟨u, hu, by simpa [execList, hu] using h⟩

/-- R136, R174: a run that ends without a fault met none on its way. -/
theorem noFault_of_execList {is : List Instr} {s t : State} (h : execList is s = .next t) (ht : t.fault = none) :
    s.fault = none := by
  induction is generalizing s with
  | nil => cases h; exact ht
  | cons i is ih =>
    obtain ⟨u, hu, hrest⟩ := execList_cons h
    exact (completes_of_exec hu (ih hrest)).1

/-- What the PUTs and the FIN of a session without fault do: they keep the layout law up to FIN, and every operand was in
its domain (R87, R137). -/
theorem packing_puts {dest : Word} {m : Memory} {t : State} (ht : t.fault = none)
    (puts : List (Word × BitVec 6)) {bits : List Bool} {s : State} (h : Packing dest m bits s)
    (hrun : execList ((puts.map fun p => Instr.put p.1 p.2) ++ [.fin]) s = .next t)
    (htop : dest.toNat + ceil8 (bits ++ streamBits puts).length ≤ 2 ^ 32) :
    ∃ u, Packing dest m (bits ++ streamBits puts) u ∧ t = u.finDone ∧
      ∀ p ∈ puts, p.1.toNat < 2 ^ p.2.toNat := by
  induction puts generalizing bits s with
  | nil =>
    obtain ⟨u, hfin, hnil⟩ := execList_cons hrun
    cases hnil
    exact ⟨s, by simpa [streamBits] using h, eq_finDone_of_exec hfin (completes_of_exec hfin ht).1 ht, by simp⟩
  | cons p puts ih =>
    obtain ⟨v, n⟩ := p
    obtain ⟨u, hput, hrest⟩ := execList_cons hrun
    have hu := noFault_of_execList hrest ht
    have hassoc : bits ++ streamBits ((v, n) :: puts) = (bits ++ valueBits v n.toNat) ++ streamBits puts :=
      (List.append_assoc _ _ _).symm
    rw [hassoc] at htop ⊢
    have hle : dest.toNat + ceil8 (bits ++ valueBits v n.toNat).length ≤ 2 ^ 32 :=
      (Nat.add_le_add_left (ceil8_mono (List.prefix_append _ _).length_le) _).trans htop
    obtain ⟨w, hw, hfin, hdom⟩ := ih (packing_put h hput hu hle) hrest htop
    refine ⟨w, hw, hfin, List.forall_mem_cons.2 ⟨?_, hdom⟩⟩
    exact (putInDomain_iff.1 (putCheck_none_iff.1 (eq_putDone_of_exec hput hu).1).1).2

/-- A session without fault, whose stream ends inside the address space, comes to its FIN with its whole stream laid out. -/
theorem session_reaches_fin {dest : Word} {puts : List (Word × BitVec 6)} {s t : State}
    (hrun : execList (session dest puts) s = .next t) (ht : t.fault = none)
    (htop : dest.toNat + ceil8 (streamBits puts).length ≤ 2 ^ 32) :
    ∃ u, Packing dest s.mem (streamBits puts) u ∧ t = u.finDone ∧ ∀ p ∈ puts, p.1.toNat < 2 ^ p.2.toNat := by
  obtain ⟨u, hinit, hrest⟩ := execList_cons hrun
  exact packing_puts ht puts (packing_init hinit (noFault_of_execList hrest ht)) hrest htop

/-! The end of a session (R82, R92). -/

/-- R47, R82: FIN drains up to the last byte of the stream. -/
theorem layout_fin_end {dest : Word} {bits : List Bool} {s : State} (h : Layout dest bits s) :
    s.outPtr.toNat + s.finFlush = dest.toNat + ceil8 bits.length := by
  obtain ⟨hd, hlen, -, -⟩ := h
  rw [← hlen, ceil8_mul_add, State.finFlush]
  omega

/-- R47 after FIN, where the last byte of the stream may lie at the top of the address space. -/
theorem holdsBits_finDone {dest : Word} {bits : List Bool} {s : State} (h : Layout dest bits s)
    (hreg : s.bitRegisterOk) (htop : dest.toNat + ceil8 bits.length ≤ 2 ^ 32) :
    holdsBits s.finDone.mem dest.toNat
      (bits ++ List.replicate (8 * ceil8 bits.length - bits.length) false) := by
  rw [← layout_padded h hreg]
  have hend := layout_fin_end h
  obtain ⟨hd, hlen, hmem, -⟩ := h
  exact holdsBits_commit hmem hd (by rw [List.length_take]; omega) (by omega)

/-- Settles O23: the layout law at FIN gives the bytes and the cursor, the frame of the session gives the rest. -/
theorem sessionWritesExactlyItsBytes : Obligations.SessionWritesExactlyItsBytes := by
  intro dest puts s t _ hrun ht htop
  obtain ⟨u, ⟨hlay, hreg, hframe⟩, rfl, -⟩ := session_reaches_fin hrun ht htop.le
  have hend := layout_fin_end hlay
  have hd := hlay.1
  refine ⟨?_, by simp [State.finDone, responseWord_ok], fun a ha ha' => ?_, fun a ha => ?_⟩
  · rw [← hend]
    exact cursor_add_toNat (by omega)
  · obtain ⟨b, hb, -⟩ := holdsBits_finDone hlay hreg htop.le (8 * (a - dest.toNat)) (by
      have := le_mul_ceil8 (streamBits puts).length
      rw [List.length_append, List.length_replicate]
      omega)
    exact ⟨b, by rwa [show dest.toNat + 8 * (a - dest.toNat) / 8 = a by omega] at hb⟩
  · calc Memory.read u.finDone.mem a = Memory.read u.mem a :=
          read_commit_outside_run (k := u.finFlush) (by omega) (by omega)
      _ = Memory.read s.mem a := hframe a ha

/-! The reference reader (R90). -/

/-- R47, R90: the reader sees the bits that memory holds. -/
theorem getElem?_eq_readBit {m : Memory} {d q : Nat} {bits : List Bool} (h : holdsBits m d bits)
    (hq : q < bits.length) : bits[q]? = some (readBit m d q) := by
  obtain ⟨v, hv, hbit⟩ := h q hq
  simp [readBit, hv, hbit]

/-- R90: the bits of a value, read one after the other, add up to it modulo `2^n`. -/
theorem readerGet_eq_mod {m : Memory} {d r : Nat} {v : Word} {n : Nat}
    (h : ∀ j, j < n → readBit m d (r + j) = v.getLsbD j) : readerGet m d r n = v.toNat % 2 ^ n := by
  induction n with
  | zero => simp [readerGet, Nat.mod_one]
  | succ n ih =>
    rw [readerGet, ih fun j hj => h j (by omega), h n (by omega), ← BitVec.testBit_toNat, Nat.toNat_testBit,
      Nat.mul_comm, ← Nat.mod_pow_succ]

/-- R90: where memory holds the stream of a list of PUTs after some bits, the reader returns the packed values. -/
theorem readerGets_eq {m : Memory} {d : Nat} (puts : List (Word × BitVec 6)) {before after : List Bool}
    (h : holdsBits m d (before ++ (streamBits puts ++ after)))
    (hdom : ∀ p ∈ puts, p.1.toNat < 2 ^ p.2.toNat) :
    readerGets m d before.length (puts.map fun p => p.2.toNat) = puts.map fun p => p.1.toNat := by
  induction puts generalizing before with
  | nil => rfl
  | cons p puts ih =>
    obtain ⟨v, n⟩ := p
    obtain ⟨hv, hdom⟩ := List.forall_mem_cons.1 hdom
    have hassoc : before ++ (streamBits ((v, n) :: puts) ++ after) =
        (before ++ valueBits v n.toNat) ++ (streamBits puts ++ after) := by
      simp [streamBits]
    rw [hassoc] at h
    have hget : readerGet m d before.length n.toNat = v.toNat := by
      rw [readerGet_eq_mod (v := v), Nat.mod_eq_of_lt hv]
      intro j hj
      have hbit := getElem?_eq_readBit h (q := before.length + j) (by simp; omega)
      rw [List.append_assoc, List.getElem?_append_right (by omega), Nat.add_sub_cancel_left,
        List.getElem?_append_left (by simpa using hj), valueBits_getElem? v hj] at hbit
      exact (Option.some.inj hbit).symm
    have hrest := ih h hdom
    rw [List.length_append, valueBits_length] at hrest
    simp only [List.map_cons, readerGets, hget, hrest]

/-- Settles O22: the bytes of a session hold its stream, and the reader takes it apart at the widths of the PUTs. -/
theorem packedStreamReadsBack : Obligations.PackedStreamReadsBack := by
  intro dest puts s t _ hrun ht htop
  obtain ⟨u, ⟨hlay, hreg, -⟩, rfl, hdom⟩ := session_reaches_fin hrun ht htop
  exact readerGets_eq puts (before := []) (holdsBits_finDone hlay hreg htop) hdom

end Sys2Proof.Proofs

/-! Proofs of the hash family (spec/41_candidate_hash.md): the window of three bytes (R101), the hash as arithmetic and
its bounds (R100, R103), what HASH3 answers (R100, R137), and what an odd HASH_MULT separates (R102, R104). -/

namespace Sys2Proof.Proofs

open Sys2Proof.Machine Sys2Proof.Laws

/-! The window (R101). -/

theorem threeBytes_eq_ofNat (low mid high : Byte) :
    threeBytes low mid high = BitVec.ofNat 24 (low.toNat + mid.toNat * 2 ^ 8 + high.toNat * 2 ^ 16) := by
  rw [← threeBytes_toNat, BitVec.ofNat_toNat, BitVec.setWidth_eq]

/-- R101: a 24-bit value determines its three bytes. -/
theorem threeBytes_inj {low mid high low' mid' high' : Byte} :
    threeBytes low mid high = threeBytes low' mid' high' ↔ low = low' ∧ mid = mid' ∧ high = high' := by
  simp only [← BitVec.toNat_inj, threeBytes_toNat]
  omega

/-- R101: every 24-bit value is the combination of its own three bytes. -/
theorem threeBytes_slices (x : BitVec 24) :
    threeBytes (x.extractLsb' 0 8) (x.extractLsb' 8 8) (x.extractLsb' 16 8) = x := by
  apply BitVec.eq_of_toNat_eq
  simp only [threeBytes_toNat, slice_toNat]
  omega

theorem threeBytes_bijective : Function.Bijective fun w : Byte × Byte × Byte => threeBytes w.1 w.2.1 w.2.2 := by
  refine ⟨fun w w' h => ?_, fun x => ⟨(_, _, _), threeBytes_slices x⟩⟩
  obtain ⟨h0, h1, h2⟩ := threeBytes_inj.1 h
  exact Prod.ext h0 (Prod.ext h1 h2)

theorem reverse_window_bijective :
    Function.Bijective fun w : Byte × Byte × Byte => (w.2.2, w.2.1, w.1) :=
  Function.Involutive.bijective fun _ => rfl

/-- Settles O27: the default order is `threeBytes`; the other two compose it with a bijection, the reversal of the window
or the free permutation. -/
theorem windowCombineIsBijective : Obligations.WindowCombineIsBijective := by
  intro o
  cases o with
  | byte0Lowest => exact threeBytes_bijective
  | byte0Highest => exact (threeBytes_bijective.comp reverse_window_bijective :)
  | other => exact (Config.otherWindowOrder.bijective.comp threeBytes_bijective :)

/-! The hash as arithmetic (R100, R103). -/

/-- R100: the top `bits` bits of the product modulo `2^32`. -/
theorem hashWindow_toNat (b : Build) (b0 b1 b2 : Byte) (bits : Nat) :
    (hashWindow b b0 b1 b2 bits).toNat =
      ((combineWindow b.windowOrder b0 b1 b2).toNat * b.hashMult.toNat % 2 ^ 32) >>> (32 - bits) := by
  have hwide : ((combineWindow b.windowOrder b0 b1 b2).setWidth 32).toNat =
      (combineWindow b.windowOrder b0 b1 b2).toNat :=
    BitVec.toNat_setWidth_of_le (by decide)
  rw [hashWindow, BitVec.toNat_ushiftRight, BitVec.toNat_mul, hwide]

theorem hashWindow_eq_ofNat (b : Build) (b0 b1 b2 : Byte) (bits : Nat) :
    hashWindow b b0 b1 b2 bits = BitVec.ofNat 32
      (((combineWindow b.windowOrder b0 b1 b2).toNat * b.hashMult.toNat % 2 ^ 32) >>> (32 - bits)) := by
  rw [← hashWindow_toNat, BitVec.ofNat_toNat, BitVec.setWidth_eq]

/-- R103 (c): a hash of fewer bits is a prefix of the 32-bit hash. -/
theorem hashWindow_eq_shift_full (b : Build) (b0 b1 b2 : Byte) (bits : Nat) :
    hashWindow b b0 b1 b2 bits = hashWindow b b0 b1 b2 32 >>> (32 - bits) := by
  simp [hashWindow]

/-- R103 (a): a word shifted down to its top `bits` bits is below `2^bits`. -/
theorem hashWindow_lt (b : Build) (b0 b1 b2 : Byte) {bits : Nat} (h : bits ≤ 32) :
    (hashWindow b b0 b1 b2 bits).toNat < 2 ^ bits := by
  rw [hashWindow_toNat, Nat.shiftRight_eq_div_pow]
  apply Nat.div_lt_of_lt_mul
  rw [← Nat.pow_add, Nat.sub_add_cancel h]
  exact Nat.mod_lt _ (by decide)

/-! What HASH3 answers (R100, R137). -/

theorem hashInDomain_iff {bits : BitVec 6} : hashInDomain bits = true ↔ 1 ≤ bits.toNat ∧ bits.toNat ≤ 32 := by
  simp [hashInDomain]

/-- R100, R137 (c): outside its domain HASH3 changes only the latch and the response. -/
theorem exec_hash3_badOperand {s : State} {bits : BitVec 6} (b0 b1 b2 : Byte) (hs : s.fault = none)
    (h : ¬ (1 ≤ bits.toNat ∧ bits.toNat ≤ 32)) :
    exec (.hash3 b0 b1 b2 bits) s = .next (s.faultedBy .badOperand) := by
  rw [exec_hash3, frontEnd_run hs, if_neg (hashInDomain_iff.not.2 h), checked_some, raise_eq]

/-- R100: inside its domain HASH3 only answers, with the hash of the window. -/
theorem exec_hash3_of_domain {s : State} {bits : BitVec 6} (b0 b1 b2 : Byte) (hs : s.fault = none)
    (h1 : 1 ≤ bits.toNat) (h32 : bits.toNat ≤ 32) :
    exec (.hash3 b0 b1 b2 bits) s = .next (s.answered (okWord (hashWindow s.build b0 b1 b2 bits.toNat))) := by
  rw [exec_hash3, frontEnd_run hs, if_pos (hashInDomain_iff.2 ⟨h1, h32⟩), checked_none, respond_ok_eq]

/-- Settles O26: `v` is the value of the combine step, a sum of the bytes in the two orders the spec names. -/
theorem hash3CombinesInParameterOrder : Obligations.Hash3CombinesInParameterOrder := by
  intro b0 b1 b2 bits s hs h1 h32
  refine ⟨(combineWindow s.build.windowOrder b0 b1 b2).toNat, BitVec.isLt _, fun ho => ?_, fun ho => ?_,
    fun ho => ?_, ?_⟩
  · rw [ho, combineWindow, threeBytes_toNat]
  · rw [ho, combineWindow, threeBytes_toNat]
  · rw [ho, combineWindow, threeBytes_eq_ofNat]
  · rw [exec_hash3_of_domain b0 b1 b2 hs h1 h32, hashWindow_eq_ofNat]

/-- Settles O25: the two ends of the domain check, and the default order's case of O26. -/
theorem hash3ChecksThenAnswersHash : Obligations.Hash3ChecksThenAnswersHash := by
  intro b0 b1 b2 bits s hs
  refine ⟨fun hout => exec_hash3_badOperand b0 b1 b2 hs (by omega), fun h1 h32 ho => ?_⟩
  obtain ⟨v, -, hv, -, -, hexec⟩ := hash3CombinesInParameterOrder b0 b1 b2 bits s hs h1 h32
  rw [hexec, hv ho]

/-- Settles O28: HASH3 answers `hashWindow` of the parameters, in both states and at both widths. -/
theorem hashIsBoundedPureAndPrefix : Obligations.HashIsBoundedPureAndPrefix := by
  intro b0 b1 b2 bits s u hs hu hb h1 h32
  refine ⟨hashWindow s.build b0 b1 b2 bits.toNat, hashWindow s.build b0 b1 b2 32,
    exec_hash3_of_domain b0 b1 b2 hs h1 h32, ?_, exec_hash3_of_domain b0 b1 b2 hs (by decide) (by decide),
    hashWindow_lt _ b0 b1 b2 h32, ?_⟩
  · rw [hb]
    exact exec_hash3_of_domain b0 b1 b2 hu h1 h32
  · rw [hashWindow_eq_shift_full, BitVec.toNat_ushiftRight]

/-! An odd HASH_MULT (R102, R104). -/

/-- R102: an odd multiplier can be cancelled modulo `2^32`. -/
theorem mod_two_pow_cancel_of_odd {x y m : Nat} (hm : m % 2 = 1) (hx : x < 2 ^ 32) (hy : y < 2 ^ 32)
    (h : x * m % 2 ^ 32 = y * m % 2 ^ 32) : x = y := by
  have hcop : Nat.gcd (2 ^ 32) m = 1 := (Nat.coprime_two_left.2 (Nat.odd_iff.2 hm)).pow_left 32
  exact (Nat.ModEq.cancel_right_of_coprime hcop h).eq_of_lt_of_lt hx hy

/-- R104 (g), on the 24-bit window value. -/
theorem combineWindow_eq_of_full_hash_eq {b : Build} (hb : b.wf) {b0 b1 b2 c0 c1 c2 : Byte}
    (h : hashWindow b b0 b1 b2 32 = hashWindow b c0 c1 c2 32) :
    combineWindow b.windowOrder b0 b1 b2 = combineWindow b.windowOrder c0 c1 c2 := by
  have hprod := congrArg BitVec.toNat h
  rw [hashWindow_toNat, hashWindow_toNat, Nat.sub_self, Nat.shiftRight_zero, Nat.shiftRight_zero] at hprod
  have hlt (x : BitVec 24) : x.toNat < 2 ^ 32 := x.isLt.trans (by decide)
  exact BitVec.eq_of_toNat_eq (mod_two_pow_cancel_of_odd hb (hlt _) (hlt _) hprod)

/-- Settles O29: the odd multiplier gives back the window value, the combine step gives back the bytes. -/
theorem fullHashSeparatesWindows : Obligations.FullHashSeparatesWindows := by
  intro b b0 b1 b2 c0 c1 c2 hb h
  have hw : (b0, b1, b2) = (c0, c1, c2) :=
    (windowCombineIsBijective b.windowOrder).injective (combineWindow_eq_of_full_hash_eq hb h)
  simpa using hw

/-! Fixed windows (R104). -/

/-- R104 (c): the orders the spec names combine three zero bytes to 0. -/
theorem combineWindow_zero {o : WindowOrder} (ho : o ≠ .other) : combineWindow o 0 0 0 = 0 := by
  cases o with
  | byte0Lowest => rfl
  | byte0Highest => rfl
  | other => exact absurd rfl ho

theorem combineWindow_one : combineWindow .byte0Lowest 1 0 0 = 1 := rfl

/-- Settles O30: the window values 0 and 1 make the product 0 and HASH_MULT. -/
theorem hashOfZeroAndOfOne : Obligations.HashOfZeroAndOfOne := by
  refine ⟨fun b bits ho => ?_, fun b ho => ?_⟩
  · rw [hashWindow, combineWindow_zero ho]
    simp
  · rw [hashWindow, ho, combineWindow_one]
    simp

end Sys2Proof.Proofs

/-! Proofs of the match cost family (spec/42_match_cost.md): the magnitude level (R113), the class cost (R112), the cost
and its bounds (R114, R115, R118), and what MCOST answers (R110, R111, R137). -/

namespace Sys2Proof.Proofs

open Sys2Proof.Machine Sys2Proof.Laws

/-! The magnitude level (R113). -/

/-- R113: below `2^21` the loop never runs out of fuel. -/
theorem magnitude_spec {p : Nat} (hp : p < 2 ^ 21) :
    5 ≤ magnitude crush p ∧ p < 2 ^ (magnitude crush p + 1) ∧
      (magnitude crush p = 5 ∨ 2 ^ magnitude crush p ≤ p) :=
  magnitudeFrom_spec p 21 5 (hp.trans (by decide))

/-- R113: the level is the least one from 5 up whose next power of two exceeds the position. -/
theorem magnitude_le_iff {p m : Nat} (hp : p < 2 ^ 21) (hm : 5 ≤ m) :
    magnitude crush p ≤ m ↔ p < 2 ^ (m + 1) := by
  obtain ⟨-, hlt, hend⟩ := magnitude_spec hp
  constructor
  · intro h
    exact hlt.trans_le (Nat.pow_le_pow_right (by decide) (Nat.succ_le_succ h))
  · intro h
    rcases hend with hbase | hle
    · omega
    · exact Nat.le_of_lt_succ ((Nat.pow_lt_pow_iff_right (by decide)).1 (hle.trans_lt h))

theorem magnitude_of_lt_64 {p : Nat} (hp : p < 64) : magnitude crush p = 5 :=
  have hdom : p < 2 ^ 21 := by omega
  le_antisymm ((magnitude_le_iff hdom le_rfl).2 hp) (magnitude_spec hdom).1

/-- R113: above the baseline the powers of two around the position determine the level. -/
theorem magnitude_of_between {p m : Nat} (hp : p < 2 ^ 21) (hm : 6 ≤ m) (hlo : 2 ^ m ≤ p)
    (hhi : p < 2 ^ (m + 1)) : magnitude crush p = m := by
  have hle : magnitude crush p ≤ m := (magnitude_le_iff hp (by omega)).2 hhi
  have hge : ¬ magnitude crush p ≤ m - 1 := by
    rw [magnitude_le_iff hp (by omega), Nat.sub_add_cancel (by omega)]
    exact hlo.not_gt
  omega

theorem magnitude_eq_log2 {p : Nat} (hp : p < 2 ^ 21) (h : 64 ≤ p) : magnitude crush p = Nat.log2 p :=
  have hne : p ≠ 0 := by omega
  magnitude_of_between hp ((Nat.le_log2 hne).2 h) (Nat.log2_self_le hne) Nat.lt_log2_self

theorem magnitude_mono {p q : Nat} (hpq : p ≤ q) (hq : q < 2 ^ 21) : magnitude crush p ≤ magnitude crush q := by
  obtain ⟨hbase, hlt, -⟩ := magnitude_spec hq
  exact (magnitude_le_iff (hpq.trans_lt hq) hbase).2 (hpq.trans_lt hlt)

/-- Settles O33: `magnitude_le_iff` makes the level the least one, and the powers of two around `p` name it. -/
theorem magnitudeIsHighestSetBit : Obligations.MagnitudeIsHighestSetBit := by
  intro p hp
  obtain ⟨hbase, hlt, -⟩ := magnitude_spec hp
  refine ⟨?_, hbase, (magnitude_le_iff hp (by decide)).2 hp, hlt, fun m hm => (magnitude_le_iff hp hm).2⟩
  split
  · exact magnitude_of_lt_64 ‹_›
  · exact magnitude_eq_log2 hp (by omega)

/-! The class cost (R112). -/

/-- R112: the length step read off the length itself. -/
theorem classCost_of_length (l : Nat) :
    classCost crush.classes (l - 3) =
      if l ≤ 6 then 1 + 2 else if l ≤ 10 then 2 + 2 else if l ≤ 14 then 3 + 2 else if l ≤ 22 then 4 + 3
      else if l ≤ 54 then 5 + 5 else 5 + 9 := by
  have hbound (k : Nat) : l - 3 < k + 1 ↔ l ≤ k + 3 := by omega
  simp only [classCost_crush, hbound]

theorem classCost_mono {l l' : Nat} (h : l ≤ l') : classCost crush.classes l ≤ classCost crush.classes l' := by
  rw [classCost_crush, classCost_crush]
  split_ifs <;> omega

/-- R118 (a): where the cost agrees at both ends of an interval, monotonicity keeps it constant in between. -/
theorem classCost_eq_of_ends {lo hi l : Nat} (hends : classCost crush.classes lo = classCost crush.classes hi)
    (hlo : lo ≤ l) (hhi : l ≤ hi) : classCost crush.classes l = classCost crush.classes lo :=
  le_antisymm ((classCost_mono hhi).trans_eq hends.symm) (classCost_mono hlo)

/-! The cost (R114, R115, R118). -/

/-- R114: the offset bits are the level, and never fewer than the 6 of a near slot. -/
theorem matchCost_eq (p l : Nat) :
    matchCost crush p l = 5 + classCost crush.classes (l - 3) + max 6 (magnitude crush p) := by
  rw [matchCost_crush]
  split <;> omega

theorem matchCost_mono {p q l l' : Nat} (hpq : p ≤ q) (hq : q < 2 ^ 21) (hl : l ≤ l') :
    matchCost crush p l ≤ matchCost crush q l' := by
  have hm := magnitude_mono hpq hq
  have hc := classCost_mono (Nat.sub_le_sub_right hl 3)
  rw [matchCost_eq, matchCost_eq]
  omega

/-- R118 (a), (b): for a fixed position the cost rises as the class cost does. -/
theorem matchCost_add_of_classCost {l l' d : Nat}
    (h : classCost crush.classes (l' - 3) = classCost crush.classes (l - 3) + d) (p : Nat) :
    matchCost crush p l' = matchCost crush p l + d := by
  rw [matchCost_eq, matchCost_eq, h]
  omega

/-- Settles O34: the cost is monotone, so its bounds are its values at the two corners of the domain. -/
theorem costLiesBetween14And39 : Obligations.CostLiesBetween14And39 := by
  have hleast : matchCost crush 0 3 = 14 := rfl
  have hgreatest : matchCost crush (2 ^ 21 - 1) 566 = 39 := by decide
  refine ⟨fun p l hp h3 h566 => ⟨?_, ?_⟩, rfl, hgreatest⟩
  · exact hleast ▸ matchCost_mono (Nat.zero_le p) hp h3
  · exact hgreatest ▸ matchCost_mono (Nat.le_sub_one_of_lt hp) (by decide) h566

/-- R118 (a): the six length classes (R7) by their first and last lengths have one class cost each. -/
theorem classCost_ends : ∀ c ∈ [(3, 6), (7, 10), (11, 14), (15, 22), (23, 54), (55, 566)],
    classCost crush.classes (c.1 - 3) = classCost crush.classes (c.2 - 3) := by
  decide

/-- Settles O35: the length enters through the class cost alone, the position through the level alone. -/
theorem costRisesByClassAndLevel : Obligations.CostRisesByClassAndLevel := by
  refine ⟨fun p q l l' hpq hq _ hl _ => matchCost_mono hpq hq hl, fun p lo hi l l' hmem h1 h2 h1' h2' => ?_,
    fun p => ?_, fun p q l hp h64 h128 => ?_, fun p q l m hm h20 hp hp' hq hq' => ?_⟩
  · have hconst {k : Nat} (hk : lo ≤ k) (hk' : k ≤ hi) :=
      classCost_eq_of_ends (classCost_ends _ hmem) (Nat.sub_le_sub_right hk 3) (Nat.sub_le_sub_right hk' 3)
    exact matchCost_add_of_classCost (d := 0) ((hconst h1 h2).trans (hconst h1' h2').symm) p
  · refine ⟨?_, ?_, ?_, ?_, ?_⟩ <;> exact matchCost_add_of_classCost rfl p
  · rw [matchCost_eq, matchCost_eq, magnitude_of_lt_64 hp,
      magnitude_of_between (m := 6) (by omega) le_rfl h64 h128]
    rfl
  · have hqdom : q < 2 ^ 21 := hq'.trans_le (Nat.pow_le_pow_right (by decide) (by omega))
    have hpdom : p < 2 ^ 21 := (hp'.trans_le hq).trans hqdom
    rw [matchCost_eq, matchCost_eq, magnitude_of_between hpdom hm hp hp',
      magnitude_of_between hqdom (by omega) hq hq']
    omega

/-! What MCOST answers (R110, R111, R137). -/

/-- R111, R137 (d), (e): outside its domain MCOST changes only the latch and the response. -/
theorem exec_mcost_badOperand {s : State} {position : Word} {length : BitVec 10} (hs : s.fault = none)
    (h : ¬ (3 ≤ length.toNat ∧ length.toNat ≤ 566 ∧ s.build.posMin.val ≤ position.toNat ∧
      position.toNat ≤ 2097151)) :
    exec (.mcost position length) s = .next (s.faultedBy .badOperand) := by
  rw [exec_mcost, frontEnd_run hs, if_neg ((costInDomain_crush _ _ _).not.2 h), checked_some, raise_eq]

/-- R110: inside its domain MCOST only answers, with the cost. -/
theorem exec_mcost_of_domain {s : State} {position : Word} {length : BitVec 10} (hs : s.fault = none)
    (h : 3 ≤ length.toNat ∧ length.toNat ≤ 566 ∧ s.build.posMin.val ≤ position.toNat ∧
      position.toNat ≤ 2097151) :
    exec (.mcost position length) s =
      .next (s.answered (okWord (BitVec.ofNat 32 (matchCost crush position.toNat length.toNat)))) := by
  rw [exec_mcost, frontEnd_run hs, if_pos ((costInDomain_crush _ _ _).2 h), checked_none, respond_ok_eq]

/-- Settles O31: `m` is the magnitude level of the position. -/
theorem mcostChecksThenAnswersCost : Obligations.McostChecksThenAnswersCost := by
  intro position length s hs
  refine ⟨fun hout => exec_mcost_badOperand hs (by omega), fun h3 h566 hmin hmax => ?_⟩
  obtain ⟨hbase, hlt, hend⟩ := magnitude_spec (p := position.toNat) (by omega)
  refine ⟨magnitude crush position.toNat, hbase, hlt, hend, ?_⟩
  rw [exec_mcost_of_domain hs ⟨h3, h566, hmin, hmax⟩, matchCost_crush, classCost_of_length, ← Nat.add_assoc]

end Sys2Proof.Proofs

/-! Proofs of the exceptions family (spec/60_exceptions.md): the cause that each command word raises (R132, R134, R135,
R137, R138), the latch (R30, R133, R136, R141), and the block between commands (R144). -/

namespace Sys2Proof.Proofs

open Sys2Proof.Machine Sys2Proof.Laws

/-! A command word as its checks (R139). -/

/-- The cause that the checks of an operation find, steps 3 to 7 of R139. -/
def opCause (s : State) : Instr → Option Cause
  | .init _ => none
  | .put v n => s.putCheck v n
  | .fin => s.finCheck
  | .hash3 _ _ _ bits => if hashInDomain bits then none else some .badOperand
  | .mcost p l => if costInDomain crush s.build.posMin.val p l then none else some .badOperand

/-- The cause of a decoded word, steps 2 to 7 of R139. -/
def wordCause (s : State) : Decoded → Option Cause
  | .instr i => opCause s i
  | .illegal _ => some .illegalCmd

/-- R139: every operation is the front end, its checks, and a part that leaves the latch alone. -/
theorem exec_eq_checked (i : Instr) : ∃ done : State → State, (∀ s, (done s).fault = s.fault) ∧
    ∀ s, exec i s = s.frontEnd fun s => s.checked (opCause s i) (done s) := by
  cases i with
  | init dest => exact ⟨fun s => State.respond { s with outPtr := dest, acc := 0, cnt := 0, active := true } .ok dest,
      fun _ => rfl, exec_init dest⟩
  | put v n => exact ⟨fun s => s.putDone v n, fun _ => rfl, exec_put v n⟩
  | fin => exact ⟨State.finDone, fun _ => rfl, exec_fin⟩
  | hash3 b0 b1 b2 bits => exact ⟨fun s => s.respond .ok (hashWindow s.build b0 b1 b2 bits.toNat), fun _ => rfl,
      exec_hash3 b0 b1 b2 bits⟩
  | mcost p l => exact ⟨fun s => s.respond .ok (BitVec.ofNat 32 (matchCost crush p.toNat l.toNat)), fun _ => rfl,
      exec_mcost p l⟩

/-- R139 for every word: an illegal one has a check that always fires. -/
theorem runCommand_eq_checked (cw : PortWord) : ∃ done : State → State, (∀ s, (done s).fault = s.fault) ∧
    ∀ s, runCommand cw s = s.frontEnd fun s => s.checked (wordCause s (decode cw)) (done s) := by
  unfold runCommand
  cases decode cw with
  | instr i => exact exec_eq_checked i
  | illegal why => exact ⟨id, fun _ => rfl, fun _ => rfl⟩

/-- R136: a latched fault refuses every command word. -/
theorem runCommand_latched {s : State} (hs : s.fault.isSome = true) (cw : PortWord) :
    runCommand cw s = .next s.refuse := by
  obtain ⟨done, -, hrun⟩ := runCommand_eq_checked cw
  rw [hrun, frontEnd_latched hs]

/-- R133, R139: a word with a cause changes only the latch and the response. -/
theorem runCommand_of_cause {cw : PortWord} {s : State} {c : Cause} (hs : s.fault = none)
    (hc : wordCause s (decode cw) = some c) : runCommand cw s = .next (s.faultedBy c) := by
  obtain ⟨done, -, hrun⟩ := runCommand_eq_checked cw
  rw [hrun, frontEnd_run hs, hc, checked_some, raise_eq]

/-- With no fault latched a command leaves its word's cause in FAULT. -/
theorem runCommand_fault {cw : PortWord} {s t : State} (hs : s.fault = none) (hr : runCommand cw s = .next t) :
    t.fault = wordCause s (decode cw) := by
  cases hc : wordCause s (decode cw) with
  | none =>
    obtain ⟨done, hdone, hrun⟩ := runCommand_eq_checked cw
    rw [hrun, frontEnd_run hs, hc, checked_none] at hr
    cases hr
    rw [hdone, hs]
  | some c =>
    rw [runCommand_of_cause hs hc] at hr
    cases hr
    rfl

/-! The latch (R30, R133, R136, R141). -/

/-- R131: the codes of the causes. -/
theorem code_range (c : Cause) : 1 ≤ c.code.toNat ∧ c.code.toNat ≤ 5 := by
  cases c <;> decide

/-- Settles O36: what the latch holds afterwards is the word's cause, and a word with a cause ends in fault entry; with
a fault latched the word is refused. -/
theorem faultEntryWritesLatchOnly : Obligations.FaultEntryWritesLatchOnly := by
  refine fun cw s t hr => ⟨fun hs ht => ?_, fun hs => ?_⟩
  · obtain ⟨c, hc⟩ := Option.ne_none_iff_exists'.1 ht
    rw [runCommand_fault hs hr] at hc
    rw [runCommand_of_cause hs hc] at hr
    cases hr
    exact ⟨c, rfl, code_range c⟩
  · rw [runCommand_latched (Option.isSome_iff_ne_none.2 hs)] at hr
    cases hr
    exact refuse_fault s

/-- Settles O39: the word is refused, and a refusal only answers. -/
theorem latchedFaultRefusesEveryWord : Obligations.LatchedFaultRefusesEveryWord := by
  intro cw c s hs
  rw [runCommand_latched (Option.isSome_of_eq_some hs), refuse_eq]

/-- R30, R141: the events other than hardware reset keep a latched cause. -/
theorem runEvent_keeps_latch {e : HostEvent} {s t : State} {c : Cause} (hs : s.fault = some c)
    (hr : runEvent e s = .next t) (hreset : ∀ g, e ≠ .reset g) (hduring : ∀ cw g, e ≠ .resetDuring cw g) :
    t.fault = some c := by
  cases e with
  | command cw =>
    rw [runEvent, runCommand_latched (Option.isSome_of_eq_some hs)] at hr
    cases hr
    exact hs
  | reset g => exact absurd rfl (hreset g)
  | resetDuring cw g => exact absurd rfl (hduring cw g)
  | hostWrite a v => cases hr; exact hs

/-- Settles O40: a step holds the state or runs one event, and of the events only the two resets touch a latched
cause. -/
theorem onlyResetClearsLatch : Obligations.OnlyResetClearsLatch := by
  refine fun s t c hs hstep => ⟨fun hreset hduring => ?_, fun g rest hp => ?_, fun cw g rest hp => ?_⟩
  · rcases step_cases hstep with ⟨-, rfl⟩ | ⟨e, rest, hp, hr⟩
    · exact hs
    · refine runEvent_keeps_latch (s := { s with pending := rest }) hs hr ?_ ?_
      · rintro g rfl
        exact hreset g rest hp
      · rintro cw g rfl
        exact hduring cw g rest hp
  · rw [step_of_pending hp] at hstep
    cases hstep
    exact hardReset_fault _ g
  · rw [step_of_pending hp] at hstep
    cases hstep
    exact hardReset_fault _ g

/-! The causes of each operation (R132, R134, R135, R137, R138). -/

/-- Settles O37: a word that decodes to an instruction selects that instruction's row, so this one is illegal. -/
theorem illegalWordRaisesIllegalCmd : Obligations.IllegalWordRaisesIllegalCmd := by
  intro cw s hs hnone
  cases hd : decode cw with
  | instr i =>
    obtain ⟨r, hr, hsel, -⟩ := decoderFollowsOpcodeTable.1 cw i hd
    simp [hnone r hr] at hsel
  | illegal why => exact ⟨⟨why, rfl⟩, runCommand_of_cause hs (congrArg (wordCause s) hd)⟩

/-- Which word raises which cause, and what must hold for it: R132 to R138 read off the checks. -/
inductive Raises (s : State) : Decoded → Cause → Prop where
  | illegal (why : IllegalReason) : Raises s (.illegal why) .illegalCmd
  | putOperand (v : Word) (n : BitVec 6) (h : ¬ (n.toNat ≤ 32 ∧ v.toNat < 2 ^ n.toNat)) :
    Raises s (.instr (.put v n)) .badOperand
  | hashOperand (b0 b1 b2 : Byte) (bits : BitVec 6) (h : ¬ (1 ≤ bits.toNat ∧ bits.toNat ≤ 32)) :
    Raises s (.instr (.hash3 b0 b1 b2 bits)) .badOperand
  | costOperand (p : Word) (l : BitVec 10) (h : ¬ (3 ≤ l.toNat ∧ l.toNat ≤ 566 ∧
      s.build.posMin.val ≤ p.toNat ∧ p.toNat ≤ 2097151)) : Raises s (.instr (.mcost p l)) .badOperand
  | putInactive (v : Word) (n : BitVec 6) (h : s.active = false) : Raises s (.instr (.put v n)) .notActive
  | finInactive (h : s.active = false) : Raises s (.instr .fin) .notActive
  | underflow (v : Word) (n : BitVec 6) (hn : n.toNat ≤ 32) (h : s.cnt.toNat < 8 * s.putFlush n) :
    Raises s (.instr (.put v n)) .putUnderflow
  | putBus (v : Word) (n : BitVec 6) (h : s.mayFlush (s.putFlush n) = false) :
    Raises s (.instr (.put v n)) .busError
  | finBus (h : s.mayFlush s.finFlush = false) : Raises s (.instr .fin) .busError

/-- The checks of PUT in their order (R81). -/
theorem raises_of_putCheck {s : State} {v : Word} {n : BitVec 6} {c : Cause} (h : s.putCheck v n = some c) :
    Raises s (.instr (.put v n)) c := by
  by_cases hd : n.toNat ≤ 32 ∧ v.toNat < 2 ^ n.toNat
  · cases ha : s.active with
    | false =>
      rw [putCheck_inactive ha, if_pos (putInDomain_iff.2 hd)] at h
      cases h
      exact .putInactive v n ha
    | true =>
      rw [putCheck_active (putInDomain_iff.2 hd) ha] at h
      split_ifs at h with hk hg <;> cases h
      · exact .underflow v n hd.1 hk
      · exact .putBus v n hg
  · rw [putCheck_badOperand hd] at h
    cases h
    exact .putOperand v n hd

/-- The checks of FIN in their order (R82). -/
theorem raises_of_finCheck {s : State} {c : Cause} (h : s.finCheck = some c) : Raises s (.instr .fin) c := by
  unfold State.finCheck at h
  split_ifs at h with ha hg <;> cases h
  · exact .finInactive ha
  · exact .finBus hg

theorem raises_of_wordCause {s : State} {d : Decoded} {c : Cause} (h : wordCause s d = some c) : Raises s d c := by
  cases d with
  | illegal why => cases h; exact .illegal why
  | instr i =>
    cases i with
    | init dest => cases h
    | put v n => exact raises_of_putCheck h
    | fin => exact raises_of_finCheck h
    | hash3 b0 b1 b2 bits =>
      simp only [wordCause, opCause, hashInDomain_iff] at h
      split_ifs at h with hd
      cases h
      exact .hashOperand b0 b1 b2 bits hd
    | mcost p l =>
      simp only [wordCause, opCause, costInDomain_crush] at h
      split_ifs at h with hd
      cases h
      exact .costOperand p l hd

/-- R137: operands outside the domain raise BAD_OPERAND whatever the rest of the state, as no check comes before. -/
theorem wordCause_eq_badOperand_iff {s : State} {d : Decoded} :
    wordCause s d = some .badOperand ↔ Raises s d .badOperand := by
  refine ⟨raises_of_wordCause, fun h => ?_⟩
  cases h with
  | putOperand v n h => exact putCheck_badOperand h
  | hashOperand b0 b1 b2 bits h => exact if_neg (hashInDomain_iff.not.2 h)
  | costOperand p l h => exact if_neg ((costInDomain_crush _ _ _).not.2 h)

/-- R137: the list of operands, as the rule writes it. -/
theorem raises_badOperand_iff {s : State} {d : Decoded} : Raises s d .badOperand ↔
    (∃ v n, d = .instr (.put v n) ∧ (32 < n.toNat ∨ 2 ^ n.toNat ≤ v.toNat)) ∨
    (∃ b0 b1 b2 bits, d = .instr (.hash3 b0 b1 b2 bits) ∧ (bits.toNat = 0 ∨ 32 < bits.toNat)) ∨
    ∃ p l, d = .instr (.mcost p l) ∧ (l.toNat < 3 ∨ 566 < l.toNat ∨
      p.toNat < s.build.posMin.val ∨ 2 ^ 21 - 1 < p.toNat) := by
  constructor
  · intro h
    cases h with
    | putOperand v n h => exact .inl ⟨v, n, rfl, by omega⟩
    | hashOperand b0 b1 b2 bits h => exact .inr (.inl ⟨b0, b1, b2, bits, rfl, by omega⟩)
    | costOperand p l h => exact .inr (.inr ⟨p, l, rfl, by omega⟩)
  · rintro (⟨v, n, rfl, h⟩ | ⟨b0, b1, b2, bits, rfl, h⟩ | ⟨p, l, rfl, h⟩)
    · exact .putOperand v n (by omega)
    · exact .hashOperand b0 b1 b2 bits (by omega)
    · exact .costOperand p l (by omega)

/-- R135, R175: a flush of at most four bytes that may not run has one of the next four addresses outside Granted. -/
theorem ungranted_of_mayFlush_false {s : State} {k : Nat} (hk : k ≤ 4) (h : s.mayFlush k = false) :
    ∃ i, i < 4 ∧ s.isGranted (s.outPtr + BitVec.ofNat 32 i) = false := by
  have hout : ¬ ∀ i, i < k → s.isGranted (s.outPtr + BitVec.ofNat 32 i) = true := by
    rw [← mayFlush_iff, h]
    decide
  push Not at hout
  obtain ⟨i, hi, hg⟩ := hout
  exact ⟨i, hi.trans_le hk, (Bool.not_eq_true _).mp hg⟩

/-- R132: decoding as illegal is the one way to ILLEGAL_CMD. -/
theorem wordCause_eq_illegalCmd_iff {s : State} {d : Decoded} :
    wordCause s d = some .illegalCmd ↔ ∃ why, d = .illegal why := by
  constructor
  · intro h
    cases raises_of_wordCause h with
    | illegal why => exact ⟨why, rfl⟩
  · rintro ⟨why, rfl⟩
    rfl

/-- R134: only the two operations that need a bound packer test ACTIVE. -/
theorem raises_notActive {s : State} {d : Decoded} (h : Raises s d .notActive) :
    s.active = false ∧ (d = .instr .fin ∨ ∃ v n, d = .instr (.put v n)) := by
  cases h with
  | putInactive v n ha => exact ⟨ha, .inr ⟨v, n, rfl⟩⟩
  | finInactive ha => exact ⟨ha, .inl rfl⟩

/-- R138, with the pre-flush count of R83 worked out. -/
theorem raises_putUnderflow {s : State} {d : Decoded} (h : Raises s d .putUnderflow) :
    ∃ v n, d = .instr (.put v n) ∧ n.toNat > 32 - s.cnt.toNat % 8 := by
  cases h with
  | underflow v n hn hk => exact ⟨v, n, rfl, (preflushCount_underflow_iff hn).1 hk⟩

/-- R135: at a legal count neither flush is longer than four bytes. -/
theorem raises_busError {s : State} {d : Decoded} (hreg : s.bitRegisterOk) (h : Raises s d .busError) :
    (d = .instr .fin ∨ ∃ v n, d = .instr (.put v n)) ∧
      ∃ i, i < 4 ∧ s.isGranted (s.outPtr + BitVec.ofNat 32 i) = false := by
  cases h with
  | putBus v n hg =>
    exact ⟨.inr ⟨v, n, rfl⟩, ungranted_of_mayFlush_false (preflushCount_le_four hreg.1) hg⟩
  | finBus hg => exact ⟨.inl rfl, ungranted_of_mayFlush_false (ceil8_le_four hreg.1) hg⟩

/-- Settles O38: FAULT ends as the word's cause, and `Raises` lists the words of each cause. -/
theorem causesBelongToTheirOperations : Obligations.CausesBelongToTheirOperations := by
  intro cw s t hs hreg hr
  rw [runCommand_fault hs hr]
  exact ⟨wordCause_eq_badOperand_iff.trans raises_badOperand_iff, wordCause_eq_illegalCmd_iff,
    fun h => raises_notActive (raises_of_wordCause h), fun h => raises_putUnderflow (raises_of_wordCause h),
    fun h => raises_busError hreg (raises_of_wordCause h)⟩

/-! The block between commands (R144). -/

/-- Settles O5: with no event a step takes the first arm of `step`. -/
theorem idleBlockHoldsState : Obligations.IdleBlockHoldsState := by
  intro s h
  simp only [step, h]

end Sys2Proof.Proofs

/-! Proofs of the reset and hazards family (spec/70_reset_and_hazards.md): what a hardware reset and a discarded command
leave (R160), the host's own writes (R168), a wide PUT split in two (R163), that the block never hangs (R173), and the
responses of a run (R174, R175). -/

namespace Sys2Proof.Proofs

open Sys2Proof.Machine Sys2Proof.Laws

/-! A discarded command (R160, R43). -/

/-- R43: after the first few writes of a run an address holds what it held before the run or what it holds after it. -/
theorem read_writeFrom_take (m : Memory) (p : Word) {vs : List Byte} (hl : vs.length ≤ 2 ^ 32) (k a : Nat) :
    Memory.read (Memory.writeFrom m p (vs.take k)) a = Memory.read m a ∨
      Memory.read (Memory.writeFrom m p (vs.take k)) a = Memory.read (Memory.writeFrom m p vs) a := by
  by_cases hin : ∃ i, i < (vs.take k).length ∧ (p + BitVec.ofNat 32 i).toNat = a
  · obtain ⟨i, hi, rfl⟩ := hin
    have htake : (vs.take k).length ≤ vs.length := List.length_take_le' k vs
    right
    rw [read_writeFrom_at m p _ (htake.trans hl) hi, read_writeFrom_at m p _ hl (hi.trans_le htake),
      List.getElem_take]
  · exact .inl (read_writeFrom_outside m p _ a fun i hi heq => hin ⟨i, hi, heq⟩)

/-- What a command writes does not depend on the events behind it. -/
theorem bytesOfWord_setPending (cw : PortWord) (s : State) (rest : List HostEvent) :
    ({ s with pending := rest } : State).bytesOfWord cw = s.bytesOfWord cw := by
  unfold State.bytesOfWord
  cases decode cw with
  | instr i => cases i <;> rfl
  | illegal why => rfl

/-- Settles O3: the bytes that have landed are the first few of those the command would have written. -/
theorem discardedCommandWritesNoForeignByte : Obligations.DiscardedCommandWritesNoForeignByte := by
  intro s cw g rest t u hp hstep hrun a
  rw [step_of_pending hp] at hstep
  cases hstep
  have hlen : (s.bytesOfWord cw).length ≤ 2 ^ 32 := (bytesOfWord_length_le cw s).1.trans (by decide)
  rw [runCommand_mem hrun, State.resetDuring, hardReset_mem, bytesOfWord_setPending]
  exact read_writeFrom_take s.mem s.outPtr hlen _ a

/-! A wide PUT split in two (R163). -/

/-- R81, R27: a completed PUT moves the cursor by at most 4, modulo 2^32. -/
theorem exec_put_outPtr {v : Word} {n : BitVec 6} {s t : State} (hreg : s.bitRegisterOk)
    (h : exec (.put v n) s = .next t) (ht : t.fault = none) :
    ∃ k, k ≤ 4 ∧ t.outPtr.toNat = (s.outPtr.toNat + k) % 2 ^ 32 := by
  obtain ⟨-, rfl⟩ := eq_putDone_of_exec h ht
  exact ⟨s.putFlush n, preflushCount_le_four hreg.1, by simp [State.putDone, BitVec.toNat_add]⟩

/-- Settles O24: each of the two PUTs appends its bits, and the two pieces together are the bits of the value. The cursor
moves by at most 8 in all, so it wraps in neither PUT. -/
theorem splitPutAppendsSameBits : Obligations.SplitPutAppendsSameBits := by
  intro dest bits v n s t hlo hhi hlay hreg hs hrun ht hnowrap
  obtain ⟨u, hlow, hrest⟩ := execList_cons hrun
  obtain ⟨t', hhigh, hnil⟩ := execList_cons hrest
  cases hnil
  obtain ⟨hu, hhighDone⟩ := completes_of_exec hhigh ht
  obtain ⟨-, hlowDone⟩ := completes_of_exec hlow hu
  have hregu : u.bitRegisterOk := bitRegisterOk_completes hreg hlowDone
  obtain ⟨k, hk, hptru⟩ := exec_put_outPtr hreg hlow hu
  obtain ⟨l, hl, hptrt⟩ := exec_put_outPtr hregu hhigh ht
  have hlayu := (putExtendsStreamLayout dest bits _ _ s u hlay hreg hs hlow hu (by omega)).1
  have hlayt := (putExtendsStreamLayout dest _ _ _ u t hlayu hregu hu hhigh ht (by omega)).1
  have hn : (n - 16).toNat = n.toNat - 16 := BitVec.toNat_sub_of_le hlo
  rw [valueBits_split v hlo, ← List.append_assoc, ← hn]
  exact hlayt

/-! The responses of a run (R174). -/

/-- R174 of the run so far: FAULT is 0 exactly when every response has status OK. -/
def LatchTellsResponses (s : State) : Prop :=
  s.fault = none ↔ ∀ rw ∈ s.responses, responseStatus rw = 0

/-- One more response keeps R174 when its status is OK exactly in the commands that leave an open latch open. -/
theorem latchTellsResponses_append {s t : State} {st : Status} {r : Word} (h : LatchTellsResponses s)
    (hresp : t.responses = s.responses ++ [responseWord st r])
    (hfault : t.fault = none ↔ s.fault = none ∧ st.code = 0) : LatchTellsResponses t := by
  unfold LatchTellsResponses at h ⊢
  rw [hfault, h, hresp]
  simp [or_imp, forall_and]

/-- R65, R131: the statuses of a raised fault and of a refusal are not OK. -/
theorem code_ne_zero (c : Cause) : c.code ≠ 0#4 := by
  cases c <;> decide

theorem latchTellsResponses_raise {s : State} (h : LatchTellsResponses s) (c : Cause) :
    LatchTellsResponses (s.raise c) :=
  latchTellsResponses_append h (raise_responses s c) (by simp [Status.code, code_ne_zero])

theorem latchTellsResponses_refuse {s : State} (h : LatchTellsResponses s) (hs : s.fault.isSome = true) :
    LatchTellsResponses s.refuse :=
  latchTellsResponses_append h (refuse_responses s) (by simp [Option.isSome_iff_ne_none.1 hs])

/-- A completed operation leaves the latch and the events to come alone. -/
theorem completes_fault_pending {i : Instr} {s t : State} (h : Completes i s t) :
    t.fault = s.fault ∧ t.pending = s.pending := by
  cases h <;> exact ⟨rfl, rfl⟩

theorem latchTellsResponses_completes {i : Instr} {s t : State} (h : LatchTellsResponses s) (hc : Completes i s t) :
    LatchTellsResponses t := by
  obtain ⟨r, hresp⟩ := completes_responses hc
  exact latchTellsResponses_append h hresp (by simp [completes_fault_pending hc, Status.code])

/-- R174 under one command word. -/
theorem latchTellsResponses_runCommand {cw : PortWord} {s t : State} (h : LatchTellsResponses s)
    (hr : runCommand cw s = .next t) : LatchTellsResponses t := by
  rcases runCommand_cases hr with ⟨i, -, he⟩ | ⟨-, -, ⟨hs, rfl⟩ | ⟨-, rfl⟩⟩
  · rcases exec_cases he with ⟨hs, rfl⟩ | ⟨-, c, rfl⟩ | ⟨-, hc⟩
    · exact latchTellsResponses_refuse h hs
    · exact latchTellsResponses_raise h c
    · exact latchTellsResponses_completes h hc
  · exact latchTellsResponses_refuse h hs
  · exact latchTellsResponses_raise h _

/-- R29: a command word leaves the events behind it alone. -/
theorem runCommand_pending {cw : PortWord} {s t : State} (h : runCommand cw s = .next t) : t.pending = s.pending := by
  rcases runCommand_ends h with rfl | ⟨c, rfl⟩ | ⟨i, hc⟩
  · rfl
  · rfl
  · exact (completes_fault_pending hc).2

/-- Every command word answers a next state (R173). -/
theorem runCommand_next (cw : PortWord) (s : State) : ∃ t, runCommand cw s = .next t := by
  obtain ⟨done, -, hrun⟩ := runCommand_eq_checked cw
  exact ⟨_, hrun s⟩

/-- A run that takes at least one step goes on from the state after it. -/
theorem run_succ {s u : core.State} (h : core.step s = .next u) (k : Nat) :
    Host.Core.run core (k + 1) s = Host.Core.run core k u := by
  rw [Host.Core.run, h]

/-- A run over command words takes them all, adds one response for each, and keeps R174. -/
theorem run_commands (ws : List PortWord) {s t : State} (h : LatchTellsResponses s)
    (hp : s.pending = ws.map HostEvent.command) (hrun : Host.Core.run core ws.length s = .next t) :
    t.pending = [] ∧ t.responses.length = s.responses.length + ws.length ∧ LatchTellsResponses t := by
  induction ws generalizing s with
  | nil => cases hrun; exact ⟨hp, rfl, h⟩
  | cons cw ws ih =>
    obtain ⟨u, hu⟩ := runCommand_next cw { s with pending := ws.map HostEvent.command }
    obtain ⟨st, r, hresp, -, -⟩ := everyWordGetsOneResponse cw _ u hu
    rw [List.length_cons, run_succ ((step_of_pending hp).trans hu)] at hrun
    have hkeep : LatchTellsResponses u :=
      latchTellsResponses_runCommand (s := { s with pending := ws.map HostEvent.command }) h hu
    obtain ⟨hpt, hlen, ht⟩ := ih hkeep (runCommand_pending hu) hrun
    refine ⟨hpt, ?_, ht⟩
    simp only [hlen, hresp, List.length_append, List.length_cons, List.length_nil]
    omega

/-- Settles O42: with no fault and no response R174 holds of the empty run, and every command word keeps it. -/
theorem runSuccessfulIffNoFaultAtEnd : Obligations.RunSuccessfulIffNoFaultAtEnd := by
  intro ws s t hs hr hp hrun
  have h0 : LatchTellsResponses s := by simp [LatchTellsResponses, hs, hr]
  obtain ⟨hpt, hlen, ht⟩ := run_commands ws h0 hp hrun
  exact ⟨hpt, by simpa [hr] using hlen, ht⟩

/-! The bytes of one command (R175). -/

/-- Settles O45: a command writes at most 4 bytes at a legal count, from the cursor on. -/
theorem oneCommandWritesAtMostFourBytes : Obligations.OneCommandWritesAtMostFourBytes := by
  intro cw s t a hreg hr hout
  rw [runCommand_mem hr]
  exact read_writeFrom_outside _ _ _ _ fun i hi => hout i (hi.trans_le ((bytesOfWord_length_le cw s).2 hreg.1))

/-! One step for each event of the host (R160, R168, R173). -/

/-- Settles O2: both reset events end in `State.hardReset`, and the bytes a discarded command has written change only
memory. -/
theorem hardwareResetClearsBlock : Obligations.HardwareResetClearsBlock := by
  refine fun s cw g rest => ⟨fun hp => ?_, fun hp => ?_⟩
  · exact ⟨State.hardReset { s with pending := rest } g, step_of_pending hp, rfl, rfl, rfl, rfl, rfl, rfl, rfl, rfl⟩
  · exact ⟨State.resetDuring { s with pending := rest } cw g, step_of_pending hp, rfl, rfl, rfl, rfl, rfl, rfl, rfl⟩

theorem runEvent_next (e : HostEvent) (s : State) : ∃ t, runEvent e s = .next t := by
  cases e with
  | command cw => exact runCommand_next cw s
  | reset g => exact ⟨_, rfl⟩
  | resetDuring cw g => exact ⟨_, rfl⟩
  | hostWrite a v => exact ⟨_, rfl⟩

/-- Settles O6: the block holds its state, or runs an event, and every event answers a next state. -/
theorem everyStepAnswersNextState : Obligations.EveryStepAnswersNextState := by
  intro s
  cases hp : s.pending with
  | nil => exact ⟨s, idleBlockHoldsState s hp⟩
  | cons e rest => rw [step_of_pending hp]; exact runEvent_next e _

/-- Settles O7: the event is one `Memory.write` and no other field is written. -/
theorem hostWriteDisturbsNothingElse : Obligations.HostWriteDisturbsNothingElse := by
  intro s a v rest hp
  exact ⟨State.hostWrite { s with pending := rest } a v, step_of_pending hp, rfl, read_write_same s.mem a.toNat v,
    fun b hb => read_write_ne s.mem v hb⟩

end Sys2Proof.Proofs
